-- ==== Sys2Proof/Word.lean ====
section
/-! DEFINITION. The two quantities of the block: the byte and the u16 (spec/00_scope.md R14). Lengths, offsets and
counts are natural numbers, since the arithmetic on them "is on unbounded natural numbers; it does not wrap" (R14);
a byte sequence is a list of bytes (R15). -/

namespace Sys2Proof

/-- "A byte is an unsigned 8-bit value, 0 to 255. Bit 0 is the least significant bit." (00 R14) -/
abbrev Byte := BitVec 8

/-- "A u16 is an unsigned 16-bit value." (00 R14) -/
abbrev U16 := BitVec 16

end Sys2Proof
end

