-- ==== Sys2Proof/Syntax.lean ====
section
/-! DEFINITION. The instructions of the block: its eight commands (spec/30_encoding.md R73), with their operands
(R69 to R72), and the transfer that carries one over the command port (R60). -/

namespace Sys2Proof

/-- A command transfer `(W, P)` (30 R60): a 16-bit command word and a payload. -/
structure Transfer where
  word : U16
  payload : List Byte
deriving DecidableEq, Repr

/-- What ENCODE's FSEL field names (30 R65): one of the four function names, or a name "that is not recognized",
which carries its selector number 4 to 7. -/
inductive FunSel where
  | reply
  | read
  | write
  | error
  | unrecognized (fsel : BitVec 3)
deriving DecidableEq, Repr

/-- The eight commands, one constructor for each row of spec/opcode_table.json. -/
inductive Instr where
  /-- CRC_INIT, format N (41 R110). -/
  | crcInit
  /-- CRC_UPDATE IMM8, format B (41 R111). -/
  | crcUpdate (imm8 : Byte)
  /-- CRC_READ, format N (41 R112). -/
  | crcRead
  /-- SET_ID IMM8, format B (42 R120). -/
  | setId (imm8 : Byte)
  /-- GET_ID, format N (42 R122). -/
  | getId
  /-- ENCODE FSEL DEST with the frame data as payload, format E (42 R130). -/
  | encode (sel : FunSel) (dest : Byte) (data : List Byte)
  /-- DECODE with the window as payload, format P (42 R135). -/
  | decode (window : List Byte)
  /-- NEXT_FRAME, format N (43 R151). -/
  | nextFrame
deriving DecidableEq, Repr

end Sys2Proof
end

