-- ==== Sys2Proof/WellFormed.lean ====
section
/-! DEFINITION. Well-formed instructions: the terms that some command transfer stands for. Every operand's range is
its type's (a byte, a byte sequence of any length: 30 R70 to R72), but for one: a function selector that is not
recognized is a number 4 to 7, since 0 to 3 are the four names (30 R65). -/

namespace Sys2Proof

/-- The selector check of 30 R65. -/
def FunSel.wf : FunSel → Bool
  | .reply => true
  | .read => true
  | .write => true
  | .error => true
  | .unrecognized fsel => decide (4 ≤ fsel.toNat)

/-- A well-formed instruction. A payload longer than 255 bytes is well formed: ENCODE answers it with
ArgumentOutOfRange (42 R130). -/
def Instr.wf : Instr → Bool
  | .crcInit => true
  | .crcUpdate _ => true
  | .crcRead => true
  | .setId _ => true
  | .getId => true
  | .encode sel _ _ => sel.wf
  | .decode _ => true
  | .nextFrame => true

end Sys2Proof
end

