-- ==== Sys2Proof/Decode.lean ====
section
/-! DEFINITION. The command decoder (spec/30_encoding.md R75), total on every transfer, and the encoder
(R69 to R73, R79). Both are written from the one table of R73. -/

namespace Sys2Proof

/-- The mnemonics of the opcode table (30 R73). -/
inductive Mnemonic where
  | crcInit | crcUpdate | crcRead | setId | getId | encode | decode | nextFrame
deriving DecidableEq, Repr

/-- One row of the opcode table (30 R73): a word `W` selects it when `W & mask = match`. -/
structure Row where
  mnemonic : Mnemonic
  pattern : U16
  mask : U16
  /-- The row's payload column: false for "must be empty". -/
  payloadAllowed : Bool
deriving DecidableEq, Repr

/-- The opcode table (30 R73), in its order. -/
def opcodeTable : List Row :=
  [ ⟨.crcInit, 0x1000, 0xFFFF, false⟩,
    ⟨.crcUpdate, 0x2000, 0xFF00, false⟩,
    ⟨.crcRead, 0x3000, 0xFFFF, false⟩,
    ⟨.setId, 0x4000, 0xFF00, false⟩,
    ⟨.getId, 0x5000, 0xFFFF, false⟩,
    ⟨.encode, 0x6000, 0xF800, true⟩,
    ⟨.decode, 0x7000, 0xFFFF, true⟩,
    ⟨.nextFrame, 0x8000, 0xFFFF, false⟩ ]

/-- `W` selects the row: `W & mask = match` (30 R73). -/
def Row.selects (r : Row) (w : U16) : Bool := w &&& r.mask == r.pattern

/-- `OPC = W[15:12]` (30 R68). -/
def opcOf (w : U16) : BitVec 4 := w.extractLsb' 12 4

/-- `IMM8 = W[7:0]` (30 R70); also `DEST = W[7:0]` (R71). -/
def lowByteOf (w : U16) : Byte := w.extractLsb' 0 8

/-- `FSEL = W[10:8]` (30 R71). -/
def fselOf (w : U16) : BitVec 3 := w.extractLsb' 8 3

/-- The name a FSEL number selects (30 R65). -/
def FunSel.ofFsel (fsel : BitVec 3) : FunSel :=
  if fsel = 0 then .reply
  else if fsel = 1 then .read
  else if fsel = 2 then .write
  else if fsel = 3 then .error
  else .unrecognized fsel

/-- The FSEL number of a name (30 R65). -/
def FunSel.fsel : FunSel → BitVec 3
  | .reply => 0
  | .read => 1
  | .write => 2
  | .error => 3
  | .unrecognized fsel => fsel

/-- Why a transfer is illegal: the three cases of 30 R74. The response is the same for all three. -/
inductive Illegal where
  /-- R74 (a): OPC is 0x0 or 0x9 to 0xF. -/
  | reservedOpcode
  /-- R74 (b): OPC is assigned, but the RSV bits of its format are not all zero. -/
  | reservedBits
  /-- R74 (c): the payload is non-empty for a command whose payload must be empty. -/
  | payloadNotAllowed
deriving DecidableEq, Repr

/-- A selected row's instruction, with its fields taken from the word and the payload (30 R75). -/
def Mnemonic.instr (m : Mnemonic) (w : U16) (p : List Byte) : Instr :=
  match m with
  | .crcInit => .crcInit
  | .crcUpdate => .crcUpdate (lowByteOf w)
  | .crcRead => .crcRead
  | .setId => .setId (lowByteOf w)
  | .getId => .getId
  | .encode => .encode (FunSel.ofFsel (fselOf w)) (lowByteOf w) p
  | .decode => .decode p
  | .nextFrame => .nextFrame

/-- Which case of 30 R74 (a) and (b) a word that selects no row falls under. -/
def unselected (w : U16) : Illegal :=
  if opcodeTable.any (fun r => opcOf r.pattern == opcOf w) then .reservedBits else .reservedOpcode

/-- The loop of 30 R75 over the rows that are left. -/
def decodeRows (w : U16) (p : List Byte) : List Row → Except Illegal Instr
  | [] => .error (unselected w)
  | r :: rest =>
    if r.selects w then
      if !r.payloadAllowed && !p.isEmpty then .error .payloadNotAllowed else .ok (r.mnemonic.instr w p)
    else decodeRows w p rest

/-- `decode_cmd` (30 R75): the command decoder, "total on every (W, P)". -/
def decodeCmd (w : U16) (p : List Byte) : Except Illegal Instr := decodeRows w p opcodeTable

/-- Format B's word: the opcode's pattern with IMM8 in bits 7:0 (30 R70). -/
def wordB (pattern : U16) (imm8 : Byte) : U16 := pattern ||| imm8.setWidth 16

/-- Format E's word: FSEL in bits 10:8 and DEST in bits 7:0 (30 R71). -/
def wordE (pattern : U16) (fsel : BitVec 3) (dest : Byte) : U16 :=
  pattern ||| fsel.setWidth 16 <<< 8 ||| dest.setWidth 16

/-- The transfer of an instruction (30 R69 to R73; the word and payload columns of R79). -/
def encode : Instr → Transfer
  | .crcInit => ⟨0x1000, []⟩
  | .crcUpdate imm8 => ⟨wordB 0x2000 imm8, []⟩
  | .crcRead => ⟨0x3000, []⟩
  | .setId imm8 => ⟨wordB 0x4000 imm8, []⟩
  | .getId => ⟨0x5000, []⟩
  | .encode sel dest data => ⟨wordE 0x6000 sel.fsel dest, data⟩
  | .decode window => ⟨0x7000, window⟩
  | .nextFrame => ⟨0x8000, []⟩

/-- The transfer whose bits are `w`, numbered as spec/opcode_table.json numbers them: bits 15:0 are the command word
and the bytes above them, up to `nbits`, are the payload. Every row of the table has 16 bits, so its payload is empty
(log entry 12). -/
def tableTransfer (nbits w : Nat) : Transfer :=
  { word := BitVec.ofNat 16 (w % 2 ^ nbits)
    payload := (List.range ((nbits - 16) / 8)).map (fun k => BitVec.ofNat 8 (w % 2 ^ nbits / 2 ^ (16 + 8 * k))) }

/-- The instruction the decoder reads from an instruction whose bits are `w`. -/
def decodeTableWord (nbits w : Nat) : Option Instr :=
  match decodeCmd (tableTransfer nbits w).word (tableTransfer nbits w).payload with
  | .ok i => some i
  | .error _ => none

end Sys2Proof
end

