-- ==== Sys2Proof/Config.lean ====
section
/-! DEFINITION. The one configuration record of the block (spec/00_scope.md R7 to R13, spec/10_state.md R32;
spec/92_eei_decisions.md D28, spec/93_implementation_defined.md U16). -/

namespace Sys2Proof

/-- `CRC_ALG` (00 R10), as far as this spec lets it vary. CRC_WIDTH is 16 by type. CRC_REFIN and CRC_REFOUT are true
and CRC_XOROUT is 0 and none of the three is a field, because the acceptance test of 30 R62 "needs CRC_XOROUT = 0 and
a checksum byte order that matches CRC_REFOUT", and 20 R43 fixes that order (log entry 7). -/
structure CrcAlg where
  /-- CRC_POLY in the form it is processed in: reflected. -/
  polyReflected : U16
  /-- CRC_INIT. -/
  init : U16
deriving DecidableEq, Repr

/-- CRC-16/ARC (00 R10): CRC_POLY 0x8005 "processed reflected as 0xA001", CRC_INIT 0x0000. -/
def CrcAlg.arc : CrcAlg := { polyReflected := 0xA001, init := 0x0000 }

/-- The function codes (30 R64, R65). -/
structure FunctionCodes where
  reply : Byte
  read : Byte
  write : Byte
  error : Byte
deriving DecidableEq, Repr

/-- The source's function codes (30 R64, R65). -/
def FunctionCodes.source : FunctionCodes := { reply := 0x06, read := 0x0B, write := 0x0C, error := 0x15 }

/-- The header offsets (30 R61): where each field of the header stands, and where the data begins, which is the number of
header bytes. The header's other offsets are reserved (30 R66). The form is the model's choice (log entry 21). -/
structure HeaderOffsets where
  destination : Nat
  source : Nat
  length : Nat
  functionCode : Nat
  data : Nat
deriving DecidableEq, Repr

/-- The offsets of 30 R61. -/
def HeaderOffsets.frame : HeaderOffsets := { destination := 0, source := 2, length := 4, functionCode := 7, data := 8 }

/-- The configuration record: "fixed from construction and no command changes them" (10 R32). It holds the fields that
00 R13 lists, and the source's other numeric literals: "fields of the configuration record, taken at the source's
values" (93 U16), the header offsets among them (92 D28). -/
structure Config where
  /-- MIN_MESSAGE_SIZE (00 R7). -/
  minMessageSize : Nat
  /-- MAX_MESSAGE_SIZE (00 R8, 93 U16). "No rule enforces it separately", so no step reads it. -/
  maxMessageSize : Nat
  /-- LOCAL_ID_DEFAULT (00 R9). -/
  localIdDefault : Byte
  /-- CRC_ALG (00 R10). -/
  crcAlg : CrcAlg
  /-- The function codes (30 R64, R65; 93 U16). -/
  functionCodes : FunctionCodes
  /-- The header offsets (30 R61; 92 D28). -/
  offsets : HeaderOffsets
  /-- BUF_CAP (00 R11): `none` is unbounded, the default. -/
  bufCap : Option Nat
  /-- READ_MAX (00 R12), at least 1; the spec gives no value. -/
  readMax : Nat
deriving DecidableEq, Repr

/-- The configurations whose behaviour the spec gives: "This spec specifies behaviour only for the values given in
rules R7 to R12" (00 R13), with the source's values for the literals of 92 D28. BUF_CAP and READ_MAX stay open but for READ_MAX >= 1. -/
abbrev Config.Specified (c : Config) : Prop :=
  c.minMessageSize = 11 ∧ c.localIdDefault = 0x63 ∧ c.crcAlg = CrcAlg.arc ∧ c.maxMessageSize = 265 ∧
    c.functionCodes = FunctionCodes.source ∧ c.offsets = HeaderOffsets.frame ∧ 1 ≤ c.readMax

/-- The configuration of `State.reset`. READ_MAX 256 is a DESIGN CHOICE (log entry 6); every other value is the
spec's. No statement rests on 256: the statements hold of every configuration their premises admit. -/
def Config.default : Config :=
  { minMessageSize := 11
    maxMessageSize := 265
    localIdDefault := 0x63
    crcAlg := CrcAlg.arc
    functionCodes := FunctionCodes.source
    offsets := HeaderOffsets.frame
    bufCap := none
    readMax := 256 }

/-- A FREE VALUE: what the transport answers to each read in an answer source of that key, "the transport's choice"
(43 R150; log entry 20). `none` is `Error`, an empty sequence is `End`, any other is a chunk. It has no body, so whatever
is proved holds of every such choice. -/
opaque Config.freeAnswer (key read : Nat) : Option (List Byte)

end Sys2Proof
end

