-- ==== Sys2Proof/Machine/State.lean ====
section
/-! DEFINITION. The state of the block (spec/10_state.md), its three ports as plain data, and the state after reset
(spec/70_reset_and_hazards.md R230). -/

namespace Sys2Proof.Machine

/-- SYNC_STATE (10 R24): "exactly one of seven values". -/
inductive SyncState where
  /-- IDLE: no NEXT_FRAME in progress. -/
  | idle
  /-- CHECK: the next step decides between reading and scanning. -/
  | check
  /-- READ: a transport read is outstanding; the block is suspended. -/
  | read
  /-- SCAN: trying the candidate offset CUR. -/
  | scan
  /-- EOS, terminal: the transport signalled end of stream. -/
  | eos
  /-- TERR, terminal: the transport raised an I/O error. -/
  | terr
  /-- OVF, terminal: the buffer would have exceeded BUF_CAP. -/
  | ovf
deriving DecidableEq, Repr

/-- The block's one storage array, BUF (10 R26, 20 R40): a byte sequence; its addresses are the byte offsets
`0 .. |BUF|-1` counted from the oldest unconsumed byte. -/
abbrev Memory := List Byte

/-- The function tag of a decoded frame (30 R64). The raw byte of an Unknown function is the record's `fcode`. -/
inductive FTag where
  | reply
  | read
  | write
  | error
  | unknown
deriving DecidableEq, Repr

/-- The frame record (30 R77). -/
structure Frame where
  dst : Byte
  src : Byte
  len : Byte
  fcode : Byte
  ftag : FTag
  data : List Byte
  checksum : U16
deriving DecidableEq, Repr

/-- What Decode answers when it answers no frame (42 R135). -/
inductive DecodeError where
  | frameTooShort
  | lengthZero
  | checksumInvalid
deriving DecidableEq, Repr

/-- The status of a response (60 R201): "No other status value is ever returned." -/
inductive Status where
  | ok
  | frameTooShort
  | checksumInvalid
  | lengthZero
  | endOfStream
  | transportError
  | bufferOverflow
  | invalidFunction
  | argumentOutOfRange
  | illegalCommand
deriving DecidableEq, Repr

/-- The VALUE of a response (30 R76). -/
inductive Value where
  /-- none -/
  | noValue
  /-- u16: CRC_READ's CRC_ACC. -/
  | u16 (v : U16)
  /-- byte: GET_ID's LOCAL_ID. -/
  | byte (v : Byte)
  /-- byte sequence: ENCODE's wire frame. -/
  | bytes (v : List Byte)
  /-- frame record: DECODE's and NEXT_FRAME's frame. -/
  | frame (v : Frame)
deriving DecidableEq, Repr

/-- A response `(STATUS, VALUE)` (30 R76). -/
structure Response where
  status : Status
  value : Value
deriving DecidableEq, Repr

/-- An answer of the transport to a read (43 R150). -/
inductive Answer where
  /-- `Chunk(c)`. A chunk of zero bytes is `End` (43 R150, R156; log entry 14). -/
  | chunk (c : List Byte)
  /-- `End`: clean end of stream. -/
  | fin
  /-- `Error`: an I/O error. -/
  | error
deriving DecidableEq, Repr

/-- Where the transport's answers come from when it answers for ever (43 R164; log entry 20). -/
inductive AnswerSource where
  /-- These answers, over and over; with none of them the transport never answers. -/
  | cycle (answers : List Answer)
  /-- A draw for each read: the free values of that key (Config.freeAnswer). -/
  | free (key : Nat)
deriving DecidableEq, Repr

/-- What the environment does at the ports (60 R214): the model's own, not the spec's (log entry 1). -/
inductive Input where
  /-- The host issues the transfer `(W, P)` (30 R60). -/
  | transfer (w : U16) (p : List Byte)
  /-- The host raises reset (70 R230). -/
  | reset
  /-- Nothing happens at the ports for one step: a reset behind it lands between two steps of the block. -/
  | wait
  /-- The transport answers the read of that number (43 R150; log entry 3). -/
  | answer (number : Nat) (a : Answer)
  /-- The transport answers every read of the NEXT_FRAME in flight from a source that never ends; the input passes when
  no NEXT_FRAME is in flight (log entry 20). -/
  | stream (src : AnswerSource)
deriving DecidableEq, Repr

/-- What leaves the block at its ports: the model's own record (log entry 2). -/
inductive Output where
  /-- A response on the response port (30 R76). -/
  | response (r : Response)
  /-- `TransportRead(maxBytes)`, the read of that number (43 R150, R153). -/
  | transportRead (number maxBytes : Nat)
deriving DecidableEq, Repr

/-- The state. The first field is the configuration (10 R32), the next seven are the block's whole state (10 R20 to
R28), the last four are the model's record of the ports. -/
structure State where
  /-- The configuration record (00 R13); nothing changes it (10 R32; log entry 5). -/
  cfg : Config
  /-- LOCAL_ID (10 R21). -/
  localId : Byte
  /-- CRC_ACC (10 R22). -/
  crcAcc : U16
  /-- SYNC_STATE (10 R24). -/
  syncState : SyncState
  /-- CUR (10 R25). -/
  cur : Nat
  /-- BUF (10 R26). -/
  buf : Memory
  /-- SHORT (10 R27). -/
  short : Bool
  /-- CMD_BUSY (10 R28). -/
  cmdBusy : Bool
  /-- What the environment will do, next first (log entry 1). -/
  inputs : List Input
  /-- What has left the ports, oldest first (log entry 2). -/
  out : List Output
  /-- The number of transport reads issued so far: the number of the newest one (log entry 3). -/
  reads : Nat
  /-- Reads abandoned by a reset and not answered yet (70 R231; log entry 3). -/
  abandoned : List Nat
deriving DecidableEq, Repr

/-- Why the machine stops with a fault. The spec has none: an error is "a defined outcome of a command, not a model
fault" (60 R200). Both name a state that no run reaches, where no rule gives a step (log entry 11). -/
inductive Fault where
  /-- Raised by NEXT_FRAME's meaning in CHECK, READ or SCAN, which "cannot occur at acceptance" (43 R151). Safe. -/
  | nextFrameInFlight
  /-- Raised by the SCAN step when CUR > |BUF| - MIN_MESSAGE_SIZE and the trial decode fails: 43 R160 and R161 give
  no step there, and 10 R25 says that it does not happen. Safe. -/
  | scanOutOfRange
deriving DecidableEq, Repr

/-- Why the machine has no step: the environment breaks a duty of 60 R214 ("the model has no move that breaks it";
log entry 4). -/
inductive Refusal where
  /-- An arm of exec that has no meaning yet. No arm of this model is so. Safe. -/
  | notModelled (mnemonic : String)
  /-- Raised by step when the host issues a transfer while CMD_BUSY = 1 and a read is outstanding (10 R28, 60 R214,
  93 U14). Safe. -/
  | transferWhileBusy
  /-- Raised when the transport answers a read that is neither outstanding nor abandoned (43 R157). Safe. -/
  | answerWithoutRead
  /-- Raised when the transport answers with a chunk longer than READ_MAX (43 R157). Safe. -/
  | chunkTooLong
deriving DecidableEq, Repr

/-- The machine right after power-on, which is a reset (70 R230): every element of 10_state.md at its reset value,
nothing at the ports, no read issued. -/
def State.reset : State :=
  { cfg := Config.default
    localId := 0x63
    crcAcc := 0x0000
    syncState := .idle
    cur := 0
    buf := []
    short := false
    cmdBusy := false
    inputs := []
    out := []
    reads := 0
    abandoned := [] }

end Sys2Proof.Machine
end

