-- ==== Sys2Proof/Machine/Ops.lean ====
section
/-! DEFINITION. The named operations on the block's storage, its ports and its registers, once for all instructions:
BUF (spec/20_memory.md), the response and read ports (spec/00_scope.md R16), taking an error (spec/60_exceptions.md
R200, R201) and reset (spec/70_reset_and_hazards.md R230, R231). -/

namespace Sys2Proof.Machine

/-! ### BUF (20 R40) -/

/-- The byte of BUF at an offset; `none` where the offset does not exist (20 R40). -/
def Memory.byteAt (m : Memory) (k : Nat) : Option Byte := m[k]?

/-- A chunk appended at BUF's end, whole and in order (43 R155). -/
def Memory.extend (m : Memory) (c : List Byte) : Memory := m ++ c

/-- A prefix of `n` bytes removed from BUF's front (43 R159): every remaining byte's offset falls by `n` (20 R40). -/
def Memory.consume (m : Memory) (n : Nat) : Memory := m.drop n

/-- Whether BUF with a chunk of `n` more bytes keeps within BUF_CAP (43 R155, R158). -/
def Memory.fits (cap : Option Nat) (m : Memory) (n : Nat) : Bool :=
  match cap with
  | none => true
  | some limit => decide (m.length + n ≤ limit)

/-- BUF's form: "Its length never exceeds BUF_CAP" (10 R26). A byte sequence has no other form to keep: equal
buffers are equal lists (log entry 13). -/
def Memory.wf (cap : Option Nat) (m : Memory) : Bool := Memory.fits cap m 0

/-- BUF as (address, byte) cells, addresses rising from 0 (20 R40). -/
def Memory.cells (m : Memory) : List Host.Cell := m.zipIdx.map (fun c => (c.2, c.1))

/-! ### The status byte (60 R201) -/

/-- The status codes (60 R201). -/
def Status.code : Status → Byte
  | .ok => 0x00
  | .frameTooShort => 0x01
  | .checksumInvalid => 0x02
  | .lengthZero => 0x03
  | .endOfStream => 0x10
  | .transportError => 0x11
  | .bufferOverflow => 0x12
  | .invalidFunction => 0x20
  | .argumentOutOfRange => 0x21
  | .illegalCommand => 0x22

/-- The status of a decode error (42 R135, 60 R201). -/
def DecodeError.status : DecodeError → Status
  | .frameTooShort => .frameTooShort
  | .lengthZero => .lengthZero
  | .checksumInvalid => .checksumInvalid

/-! ### The ports (00 R16) -/

/-- `respond(status, value)`: completes the command in flight (00 R16), so CMD_BUSY falls (10 R28). -/
def respond (st : Status) (v : Value) (s : State) : State :=
  { s with cmdBusy := false, out := s.out ++ [.response ⟨st, v⟩] }

/-- `raise E`: completes the command with the error status E and no value (00 R16, 30 R76). This is all there is to
taking an error: it "saves no state, changes no mode, switches no stack and jumps to no vector" (60 R210), and
nothing returns from it (60 R211). -/
def raise (e : Status) (s : State) : State := respond e .noValue s

/-- An error of the transport port (60 R205): SYNC_STATE takes its terminal value and the command ends with that
error; BUF and SHORT are unchanged (43 R154, R156, R158). -/
def endStream (terminal : SyncState) (e : Status) (s : State) : State :=
  raise e { s with syncState := terminal }

/-- Entering READ, which "issues exactly one TransportRead(READ_MAX)" (43 R153). -/
def startRead (s : State) : State :=
  { s with
    syncState := .read
    reads := s.reads + 1
    out := s.out ++ [.transportRead (s.reads + 1) s.cfg.readMax] }

/-! ### Reset (70 R230, R231) -/

/-- The reads abandoned after a reset: the outstanding one joins those already abandoned (70 R231). -/
def abandonedByReset (s : State) : List Nat :=
  if s.cmdBusy && s.syncState == .read then s.abandoned ++ [s.reads] else s.abandoned

/-- Reset: "one atomic event that the host can raise at any time" (70 R230). A command in flight ends with no
response, and an outstanding read is abandoned (R231). -/
def resetEvent (s : State) : State :=
  { s with
    localId := s.cfg.localIdDefault
    crcAcc := s.cfg.crcAlg.init
    syncState := .idle
    cur := 0
    buf := []
    short := false
    cmdBusy := false
    abandoned := abandonedByReset s }

end Sys2Proof.Machine
end

