-- ==== Sys2Proof/Machine/Operands.lean ====
section
/-! DEFINITION. Operand forms and the wire frame's layout (spec/30_encoding.md R61, R64, R65; spec/20_memory.md R43;
spec/00_scope.md R15). -/

namespace Sys2Proof.Machine

/-- `le16(v)` is `[v & 0xFF, v >> 8]` (00 R15). -/
def le16 (v : U16) : List Byte := [v.extractLsb' 0 8, v.extractLsb' 8 8]

/-- `u16le(a, b)` is `a + 256*b` (00 R15): bits 7:0 are `a`, bits 15:8 are `b`. -/
def u16le (a b : Byte) : U16 := b ++ a

/-- `w[i]` (00 R15). The zero outside `w` is read by no rule: "each rule checks bounds first" (log entry 13). -/
def byteOf (w : List Byte) (i : Nat) : Byte := w[i]?.getD 0

/-- The function code ENCODE writes for its FSEL (30 R65); none for a name that is not recognized. -/
def FunSel.code (codes : FunctionCodes) : FunSel → Option Byte
  | .reply => some codes.reply
  | .read => some codes.read
  | .write => some codes.write
  | .error => some codes.error
  | .unrecognized _ => none

/-- The function tag of a function code (30 R64). -/
def tagOf (codes : FunctionCodes) (code : Byte) : FTag :=
  if code = codes.reply then .reply
  else if code = codes.read then .read
  else if code = codes.write then .write
  else if code = codes.error then .error
  else .unknown

/-- The tag number in a response (30 R64, R77). -/
def FTag.number : FTag → Nat
  | .reply => 0
  | .read => 1
  | .write => 2
  | .error => 3
  | .unknown => 4

/-- The header (30 R61): each field at its offset and 0x00 at every other (30 R66). At the offsets of R61 it is
"[destination,0,source_id,0,len(data),0,0,function_code]" (frameHeader_frame). -/
def frameHeader (o : HeaderOffsets) (dest src len code : Byte) : List Byte :=
  ((((List.replicate o.data 0x00).set o.destination dest).set o.source src).set o.length len).set o.functionCode code

/-- The size of the frame with a length byte: the header, the data and two checksum bytes, `L + 10` (30 R61). -/
def frameSize (o : HeaderOffsets) (len : Byte) : Nat := len.toNat + (o.data + 2)

end Sys2Proof.Machine
end

