-- ==== Sys2Proof/Machine/Flags.lean ====
section
/-! DEFINITION. Flags. "The block has no condition codes and no status flags that the host can read" and "No command
sets a flag as a side effect" (spec/10_state.md R29). Its one flag is SHORT, "need more data" (R27), which only the
synchronizer's steps set, clear and test. -/

namespace Sys2Proof.Machine

/-- CHECK's first test (43 R152): BUF is empty or SHORT is 1. -/
def mustRead (s : State) : Bool := s.buf.isEmpty || s.short

/-- SHORT <- 1 (43 R152, R161). -/
def setShort (s : State) : State := { s with short := true }

/-- BUF <- BUF ++ c with SHORT <- 0 (43 R155): appending a non-empty chunk clears the flag (10 R27). -/
def appendChunk (c : List Byte) (s : State) : State := { s with buf := Memory.extend s.buf c, short := false }

end Sys2Proof.Machine
end

