-- ==== Sys2Proof/Machine/Crc.lean ====
section
/-! DEFINITION. The CRC-16 checksum generator (spec/41_crc.md): the one function `crc16` that "serves the whole
block" (R100), and the meanings of CRC_INIT, CRC_UPDATE and CRC_READ. -/

namespace Sys2Proof.Machine

/-- One of the eight shifts of 41 R101. -/
def crcShift (alg : CrcAlg) (c : U16) : U16 :=
  if c.getLsbD 0 then (c >>> 1) ^^^ alg.polyReflected else c >>> 1

/-- The shift, repeated (41 R101). -/
def crcShifts (alg : CrcAlg) : Nat → U16 → U16
  | 0, c => c
  | n + 1, c => crcShifts alg n (crcShift alg c)

/-- `crc_step(c, b)` (41 R101): the byte enters least significant bit first. -/
def crcStep (alg : CrcAlg) (c : U16) (b : Byte) : U16 := crcShifts alg 8 (c ^^^ b.setWidth 16)

/-- `crc_step` folded over a byte sequence from the left (41 R102). -/
def crcFold (alg : CrcAlg) : U16 → List Byte → U16
  | c, [] => c
  | c, b :: rest => crcFold alg (crcStep alg c b) rest

/-- `crc16(s)` (41 R102): from CRC_INIT, with no final XOR and no further reflection. -/
def crc16 (alg : CrcAlg) (bytes : List Byte) : U16 := crcFold alg alg.init bytes

/-- CRC_INIT (41 R110). -/
def execCrcInit (s : State) : Host.Outcome State Fault Refusal :=
  .next (respond .ok .noValue { s with crcAcc := s.cfg.crcAlg.init })

/-- CRC_UPDATE (41 R111). -/
def execCrcUpdate (imm8 : Byte) (s : State) : Host.Outcome State Fault Refusal :=
  .next (respond .ok .noValue { s with crcAcc := crcStep s.cfg.crcAlg s.crcAcc imm8 })

/-- CRC_READ (41 R112). -/
def execCrcRead (s : State) : Host.Outcome State Fault Refusal :=
  .next (respond .ok (.u16 s.crcAcc) s)

end Sys2Proof.Machine
end

