-- ==== Sys2Proof/Machine/Codec.lean ====
section
/-! DEFINITION. The frame codec (spec/42_codec.md): building a wire frame, the Decode function, and the meanings of
SET_ID, GET_ID, ENCODE and DECODE. -/

namespace Sys2Proof.Machine

/-- The wire bytes of a frame (42 R130): `m ++ le16(crc16(m))`, where `m` is the header and the data. -/
def buildFrame (cfg : Config) (dest src code : Byte) (data : List Byte) : List Byte :=
  frameHeader cfg.offsets dest src (BitVec.ofNat 8 data.length) code ++ data ++
    le16 (crc16 cfg.crcAlg (frameHeader cfg.offsets dest src (BitVec.ofNat 8 data.length) code ++ data))

/-- The length byte of a window (30 R61: at offset 4). -/
def lengthByte (cfg : Config) (w : List Byte) : Byte := byteOf w cfg.offsets.length

/-- The frame record Decode reports for a window (42 R135, 30 R77). It reads no reserved offset, and the
function code "only to report it" (42 R137). -/
def frameOf (cfg : Config) (w : List Byte) : Frame :=
  { dst := byteOf w cfg.offsets.destination
    src := byteOf w cfg.offsets.source
    len := lengthByte cfg w
    fcode := byteOf w cfg.offsets.functionCode
    ftag := tagOf cfg.functionCodes (byteOf w cfg.offsets.functionCode)
    data := (w.drop cfg.offsets.data).take (lengthByte cfg w).toNat
    checksum := u16le (byteOf w (cfg.offsets.data + (lengthByte cfg w).toNat))
      (byteOf w (cfg.offsets.data + 1 + (lengthByte cfg w).toNat)) }

/-- `Decode(w)` (42 R135), with its tests in the order of 42 R136. -/
def decodeFrame (cfg : Config) (w : List Byte) : Except DecodeError Frame :=
  if w.length < cfg.minMessageSize then .error .frameTooShort
  else if lengthByte cfg w = 0 then .error .lengthZero
  else if w.length < frameSize cfg.offsets (lengthByte cfg w) then .error .frameTooShort
  else if crc16 cfg.crcAlg (w.take (frameSize cfg.offsets (lengthByte cfg w))) ≠ 0 then .error .checksumInvalid
  else .ok (frameOf cfg w)

/-- `DecodeAt(s, k)` is `Decode(s[k..])` (42 R134). -/
def decodeAt (cfg : Config) (m : List Byte) (k : Nat) : Except DecodeError Frame := decodeFrame cfg (m.drop k)

/-- SET_ID (42 R120). -/
def execSetId (imm8 : Byte) (s : State) : Host.Outcome State Fault Refusal :=
  .next (respond .ok .noValue { s with localId := imm8 })

/-- GET_ID (42 R122). -/
def execGetId (s : State) : Host.Outcome State Fault Refusal :=
  .next (respond .ok (.byte s.localId) s)

/-- ENCODE (42 R130), with its checks in the order of 42 R132: the payload's length, then the function selector. -/
def execEncode (sel : FunSel) (dest : Byte) (data : List Byte) (s : State) : Host.Outcome State Fault Refusal :=
  if data.length > 255 then .next (raise .argumentOutOfRange s)
  else
    match FunSel.code s.cfg.functionCodes sel with
    | none => .next (raise .invalidFunction s)
    | some code => .next (respond .ok (.bytes (buildFrame s.cfg dest s.localId code data)) s)

/-- DECODE (42 R135). -/
def execDecode (window : List Byte) (s : State) : Host.Outcome State Fault Refusal :=
  match decodeFrame s.cfg window with
  | .ok f => .next (respond .ok (.frame f) s)
  | .error e => .next (raise e.status s)

end Sys2Proof.Machine
end

