-- ==== Sys2Proof/Machine/Sync.lean ====
section
/-! DEFINITION. The stream synchronizer (spec/43_sync.md): the meaning of NEXT_FRAME (R151), the block's own CHECK
and SCAN steps (R152, R159 to R161), and the step that takes a transport answer (R154 to R158), alone or from a source that never ends (R164). -/

namespace Sys2Proof.Machine

/-- NEXT_FRAME at acceptance (43 R151): CMD_BUSY becomes 1; in a terminal state the stored code is the response, with
no transport read, and CMD_BUSY is 0 again. -/
def execNextFrame (s : State) : Host.Outcome State Fault Refusal :=
  match s.syncState with
  | .idle => .next { s with cmdBusy := true, syncState := .check }
  | .eos => .next (raise .endOfStream s)
  | .terr => .next (raise .transportError s)
  | .ovf => .next (raise .bufferOverflow s)
  | .check => .fault .nextFrameInFlight
  | .read => .fault .nextFrameInFlight
  | .scan => .fault .nextFrameInFlight

/-- The CHECK step (43 R152). -/
def checkStep (s : State) : State :=
  if mustRead s then startRead s
  else if s.buf.length < s.cfg.minMessageSize then startRead (setShort s)
  else { s with cur := 0, syncState := .scan }

/-- A match at CUR (43 R159): the frame and every byte before it are consumed, "Nothing after the frame's last byte". -/
def scanMatch (f : Frame) (s : State) : State :=
  respond .ok (.frame f)
    { s with buf := Memory.consume s.buf (s.cur + frameSize s.cfg.offsets f.len), cur := 0, syncState := .idle }

/-- The SCAN step (43 R159, R160, R161). -/
def scanStep (s : State) : Host.Outcome State Fault Refusal :=
  match decodeAt s.cfg s.buf s.cur with
  | .ok f => .next (scanMatch f s)
  | .error _ =>
    if s.cur + s.cfg.minMessageSize < s.buf.length then .next { s with cur := s.cur + 1 }
    else if s.cur + s.cfg.minMessageSize = s.buf.length then
      .next (setShort { s with cur := 0, syncState := .check })
    else .fault .scanOutOfRange

/-- The block has a step of its own to take: a NEXT_FRAME is in flight in CHECK or SCAN. In READ it "takes no step of
its own" (43 R153). -/
def ownStepReady (s : State) : Bool := s.cmdBusy && (s.syncState == .check || s.syncState == .scan)

/-- The block's own step, if it has one; else it waits: for a command, or in READ for the transport (43 R153), "for
ever" if need be (43 R150, R164; log entry 15). -/
def blockStep (s : State) : Host.Outcome State Fault Refusal :=
  if s.cmdBusy then
    match s.syncState with
    | .check => .next (checkStep s)
    | .scan => scanStep s
    | _ => .next s
  else .next s

/-- The transport's answer to the outstanding read (43 R154, R155, R156, R158). -/
def takeAnswer (a : Answer) (s : State) : State :=
  match a with
  | .error => endStream .terr .transportError s
  | .fin => endStream .eos .endOfStream s
  | .chunk [] => endStream .eos .endOfStream s
  | .chunk (b :: c) =>
    if Memory.fits s.cfg.bufCap s.buf (b :: c).length then
      { appendChunk (b :: c) s with syncState := .check }
    else endStream .ovf .bufferOverflow s

/-- The number of bytes an answer brings. -/
def Answer.size : Answer → Nat
  | .chunk c => c.length
  | .fin => 0
  | .error => 0

/-- An answer arrives at the transport port. One to the outstanding read is taken; one to a read that a reset
abandoned "is discarded, and its bytes never enter BUF" (70 R231); any other, and any chunk longer than READ_MAX, "has
no step in the model" (43 R157; log entry 4). -/
def receiveAnswer (number : Nat) (a : Answer) (s : State) : Host.Outcome State Fault Refusal :=
  if s.cfg.readMax < Answer.size a then .refused .chunkTooLong
  else if s.cmdBusy && s.syncState == .read && number == s.reads then .next (takeAnswer a s)
  else if s.abandoned.contains number then .next { s with abandoned := s.abandoned.erase number }
  else .refused .answerWithoutRead

/-- A drawn answer: as any answer, it brings at most READ_MAX bytes (43 R150). -/
def drawnAnswer (readMax : Nat) : Option (List Byte) → Answer
  | none => .error
  | some c => .chunk (c.take readMax)

/-- A source's answer to the read of that number, and the source after it (log entry 20). -/
def AnswerSource.next (readMax read : Nat) : AnswerSource → Option (Answer × AnswerSource)
  | .cycle [] => none
  | .cycle (a :: later) => some (a, .cycle (later ++ [a]))
  | .free key => some (drawnAnswer readMax (Config.freeAnswer key read), .free key)

/-- The outstanding read is answered from a source, which stays next at the port; with no answer the block waits
(43 R150, R164). -/
def receiveStream (src : AnswerSource) (rest : List Input) (s : State) : Host.Outcome State Fault Refusal :=
  match AnswerSource.next s.cfg.readMax s.reads src with
  | none => .next s
  | some (a, src') => receiveAnswer s.reads a { s with inputs := .stream src' :: rest }

end Sys2Proof.Machine
end

