-- ==== Sys2Proof/Machine/Dispatch.lean ====
section
/-! DEFINITION. The dispatch: one arm per constructor of Instr, each one call of its meaning. -/

namespace Sys2Proof.Machine

def exec (i : Instr) (s : State) : Host.Outcome State Fault Refusal :=
  match i with
  | .crcInit => Sys2Proof.Machine.execCrcInit s
  | .crcUpdate imm8 => Sys2Proof.Machine.execCrcUpdate imm8 s
  | .crcRead => Sys2Proof.Machine.execCrcRead s
  | .setId imm8 => Sys2Proof.Machine.execSetId imm8 s
  | .getId => Sys2Proof.Machine.execGetId s
  | .encode sel dest data => Sys2Proof.Machine.execEncode sel dest data s
  | .decode window => Sys2Proof.Machine.execDecode window s
  | .nextFrame => Sys2Proof.Machine.execNextFrame s

end Sys2Proof.Machine
end

