-- ==== Sys2Proof/Machine/Step.lean ====
section
/-! DEFINITION. One step of the machine: what the next port input makes the block do (spec/20_memory.md R46, R48;
spec/30_encoding.md R60, R74, R75), and the command a first step runs. -/

namespace Sys2Proof.Machine

/-- The command port takes a transfer (30 R60): a legal one is executed; an illegal one "changes no state and gets the
response (IllegalCommand, none)" (30 R74), before any other check (60 R208). -/
def acceptTransfer (w : U16) (p : List Byte) (s : State) : Host.Outcome State Fault Refusal :=
  match decodeCmd w p with
  | .ok i => exec i s
  | .error _ => .next (raise .illegalCommand s)

/-- One step. Reset lands at any step (70 R230). While the block has a step of its own it takes that, and the next
transfer or answer waits: none is taken between NEXT_FRAME's steps "except the one transport answer to its own
outstanding read" (20 R46). Otherwise the next input is taken; with no input left the block moves or waits. A source of
answers that never ends (43 R164, log entry 20) answers an outstanding read and stays the next input; with no
read outstanding it is dropped. -/
def step (s : State) : Host.Outcome State Fault Refusal :=
  match s.inputs with
  | [] => blockStep s
  | .wait :: rest => blockStep { s with inputs := rest }
  | .reset :: rest => .next (resetEvent { s with inputs := rest })
  | .transfer w p :: rest =>
    if ownStepReady s then blockStep s
    else if s.cmdBusy then .refused .transferWhileBusy
    else acceptTransfer w p { s with inputs := rest }
  | .answer number a :: rest =>
    if ownStepReady s then blockStep s
    else receiveAnswer number a { s with inputs := rest }
  | .stream src :: rest =>
    if ownStepReady s then blockStep s
    else if s.cmdBusy && s.syncState == .read then receiveStream src rest s
    else blockStep { s with inputs := rest }

/-- SYNC_STATE with no NEXT_FRAME in flight: what it is when CMD_BUSY = 0 (10 R24, R31 (e)). -/
def SyncState.settled : SyncState → SyncState
  | .idle => .idle
  | .check => .idle
  | .read => .idle
  | .scan => .idle
  | .eos => .eos
  | .terr => .terr
  | .ovf => .ovf

/-- The state whose very next step runs the command whose bits are `w`: the host issues it next, and the port is ready
(CMD_BUSY = 0, so no NEXT_FRAME is in flight; log entry 12). -/
def State.withFetchWord (s : State) (nbits w : Nat) : State :=
  { s with
    cmdBusy := false
    syncState := s.syncState.settled
    inputs := .transfer (tableTransfer nbits w).word (tableTransfer nbits w).payload :: s.inputs }

end Sys2Proof.Machine
end

