-- ==== Sys2Proof/Machine/Assembler.lean ====
section
/-! DEFINITION. The textual command form and the pseudo-commands (spec/30_encoding.md R79, R80): a line of text is
read into the transfers the host issues for it. What white space is, and that hexadecimal digits may have either
case, is a DESIGN CHOICE (log entry 17). -/

namespace Sys2Proof

/-- A token of a line. -/
inductive AsmToken where
  | word (cs : List Char)
  | comma
  | openList
  | closeList
deriving DecidableEq, Repr

/-- A line of the textual form (30 R79): a command, a raw transfer, or a pseudo-command (R80). -/
inductive AsmLine where
  | instr (i : Instr)
  /-- `.word W, [payload]`: "any transfer, legal or not". -/
  | raw (w : U16) (p : List Byte)
  /-- `crc.block [b0, ..., bn-1]` -/
  | crcBlock (bytes : List Byte)
  /-- `crc.of [s]` -/
  | crcOf (bytes : List Byte)
  /-- `crc.check [frame]` -/
  | crcCheck (frame : List Byte)
deriving DecidableEq, Repr

/-- `crc.block`: one crc.update for each byte, in order; no command for an empty list (30 R80). -/
def crcBlockTransfers (bytes : List Byte) : List Transfer := bytes.map (fun b => encode (.crcUpdate b))

/-- `crc.of`: crc.init, then crc.block, then crc.read (30 R80). -/
def crcOfTransfers (bytes : List Byte) : List Transfer :=
  encode .crcInit :: (crcBlockTransfers bytes ++ [encode .crcRead])

/-- The transfers of a line (30 R79, R80). -/
def AsmLine.transfers : AsmLine → List Transfer
  | .instr i => [encode i]
  | .raw w p => [⟨w, p⟩]
  | .crcBlock bytes => crcBlockTransfers bytes
  | .crcOf bytes => crcOfTransfers bytes
  | .crcCheck frame => crcOfTransfers frame

/-- The word read so far (kept backwards), as a token, before the tokens after it. -/
def flushWord (acc : List Char) (rest : List AsmToken) : List AsmToken :=
  if acc.isEmpty then rest else .word acc.reverse :: rest

/-- A line's tokens: "`;` starts a comment" (30 R79). -/
def asmTokens : List Char → List Char → List AsmToken
  | [], acc => flushWord acc []
  | c :: cs, acc =>
    if c = ';' then flushWord acc []
    else if c = ' ' then flushWord acc (asmTokens cs [])
    else if c = '\t' then flushWord acc (asmTokens cs [])
    else if c = ',' then flushWord acc (.comma :: asmTokens cs [])
    else if c = '[' then flushWord acc (.openList :: asmTokens cs [])
    else if c = ']' then flushWord acc (.closeList :: asmTokens cs [])
    else asmTokens cs (c :: acc)

/-- The value of a digit in a base up to sixteen. -/
def digitOf (base : Nat) (c : Char) : Option Nat :=
  let v :=
    if '0'.toNat ≤ c.toNat ∧ c.toNat ≤ '9'.toNat then some (c.toNat - '0'.toNat)
    else if 'a'.toNat ≤ c.toNat ∧ c.toNat ≤ 'f'.toNat then some (c.toNat - 'a'.toNat + 10)
    else if 'A'.toNat ≤ c.toNat ∧ c.toNat ≤ 'F'.toNat then some (c.toNat - 'A'.toNat + 10)
    else none
  v.filter (fun d => decide (d < base))

/-- The number that the digits continue. -/
def digitsFrom (base : Nat) : Nat → List Char → Option Nat
  | n, [] => some n
  | n, c :: cs =>
    match digitOf base c with
    | some d => digitsFrom base (base * n + d) cs
    | none => none

/-- "Immediates are written in decimal or with the 0x prefix" (30 R79). -/
def asmNumber : List Char → Option Nat
  | '0' :: 'x' :: c :: cs => digitsFrom 16 0 (c :: cs)
  | c :: cs => digitsFrom 10 0 (c :: cs)
  | [] => none

/-- A number of at most `w` bits. -/
def asmBits (w : Nat) (cs : List Char) : Option (BitVec w) :=
  match asmNumber cs with
  | some n => if n < 2 ^ w then some (BitVec.ofNat w n) else none
  | none => none

/-- The rest of a byte list after its opening bracket, with the line ending behind it (30 R79). -/
def asmBytesFrom : List AsmToken → Option (List Byte)
  | [.word cs, .closeList] => (asmBits 8 cs).map (fun b => [b])
  | .word cs :: .comma :: rest =>
    match asmBits 8 cs, asmBytesFrom rest with
    | some b, some bs => some (b :: bs)
    | _, _ => none
  | _ => none

/-- "Byte lists are written `[b0, b1, ...]`, and `[]` is empty" (30 R79). -/
def asmBytes : List AsmToken → Option (List Byte)
  | [.openList, .closeList] => some []
  | .openList :: rest => asmBytesFrom rest
  | _ => none

/-- `FN`: a name of 30 R79, or `fsel=N` for a raw selector. -/
def asmFunSel (cs : List Char) : Option FunSel :=
  if cs = "reply".toList then some .reply
  else if cs = "read".toList then some .read
  else if cs = "write".toList then some .write
  else if cs = "error".toList then some .error
  else if cs.take 5 = "fsel=".toList then (asmBits 3 (cs.drop 5)).map FunSel.ofFsel
  else none

/-- The line that a word and what follows it stand for (30 R79, R80). -/
def asmLineOf (cs : List Char) (args : List AsmToken) : Option AsmLine :=
  if cs = "crc.init".toList then (if args.isEmpty then some (.instr .crcInit) else none)
  else if cs = "crc.read".toList then (if args.isEmpty then some (.instr .crcRead) else none)
  else if cs = "id.get".toList then (if args.isEmpty then some (.instr .getId) else none)
  else if cs = "next".toList then (if args.isEmpty then some (.instr .nextFrame) else none)
  else if cs = "dec".toList then (asmBytes args).map (fun w => .instr (.decode w))
  else if cs = "crc.block".toList then (asmBytes args).map .crcBlock
  else if cs = "crc.of".toList then (asmBytes args).map .crcOf
  else if cs = "crc.check".toList then (asmBytes args).map .crcCheck
  else
    match args with
    | [.word n] =>
      if cs = "crc.update".toList then (asmBits 8 n).map (fun b => .instr (.crcUpdate b))
      else if cs = "id.set".toList then (asmBits 8 n).map (fun b => .instr (.setId b))
      else none
    | .word n :: .comma :: .word fn :: .comma :: rest =>
      if cs = "enc".toList then
        match asmBits 8 n, asmFunSel fn, asmBytes rest with
        | some dest, some sel, some data => some (.instr (.encode sel dest data))
        | _, _, _ => none
      else none
    | .word n :: .comma :: rest =>
      if cs = ".word".toList then
        match asmBits 16 n, asmBytes rest with
        | some w, some p => some (.raw w p)
        | _, _ => none
      else none
    | _ => none

/-- The transfers of one line of text: none for an empty line or a comment; no answer for a line that R79 and R80
do not give. -/
def assemble (line : List Char) : Option (List Transfer) :=
  match asmTokens line [] with
  | [] => some []
  | .word cs :: args => (asmLineOf cs args).map AsmLine.transfers
  | _ => none

end Sys2Proof
end

