-- ==== Sys2Proof/Machine/Loop.lean ====
section
/-! DEFINITION. The synchronizer's algorithm as the source's one loop (spec/43_sync.md R162), beside the stepwise
machine of Machine/Sync.lean. No step calls it: the claim that the two agree is stated in terms of it. -/

namespace Sys2Proof.Machine

/-- The lowest of the `n` offsets from `k` up at which a frame decodes, with that frame: "ascending" (43 R162). -/
def firstFrame (cfg : Config) (m : List Byte) : Nat → Nat → Option (Nat × Frame)
  | _, 0 => none
  | k, n + 1 =>
    match decodeAt cfg m k with
    | .ok f => some (k, f)
    | .error _ => firstFrame cfg m (k + 1) n

/-- The loop's scan: offsets `0 .. |BUF| - MIN_MESSAGE_SIZE`, "inclusive, ascending", once BUF holds
MIN_MESSAGE_SIZE bytes (43 R162). -/
def scanAll (cfg : Config) (m : List Byte) : Option (Nat × Frame) :=
  if cfg.minMessageSize ≤ m.length then firstFrame cfg m 0 (m.length - cfg.minMessageSize + 1) else none

/-- The loop's return of a frame, if the scan finds one (43 R162). -/
def loopScan (s : State) : Option State :=
  match scanAll s.cfg s.buf with
  | some (k, f) =>
    some (respond .ok (.frame f)
      { s with buf := Memory.consume s.buf (k + frameSize s.cfg.offsets f.len), syncState := .idle })
  | none => none

/-- The loop from a transport read on, fed with the answers the transport gives (43 R162): the state it ends in and
the answers it has not asked for. With no answer left it is suspended in the read. -/
def readLoop : List Answer → State → State × List Answer
  | [], s => (startRead s, [])
  | .error :: rest, s => (endStream .terr .transportError (startRead s), rest)
  | .fin :: rest, s => (endStream .eos .endOfStream (startRead s), rest)
  | .chunk [] :: rest, s => (endStream .eos .endOfStream (startRead s), rest)
  | .chunk (b :: c) :: rest, s =>
    if Memory.fits s.cfg.bufCap s.buf (b :: c).length then
      match loopScan (appendChunk (b :: c) (startRead s)) with
      | some t => (t, rest)
      | none => readLoop rest (setShort (appendChunk (b :: c) (startRead s)))
    else (endStream .ovf .bufferOverflow (startRead s), rest)

/-- The loop from its top (43 R162). -/
def topLoop (answers : List Answer) (s : State) : State × List Answer :=
  if mustRead s then readLoop answers s
  else
    match loopScan s with
    | some t => (t, answers)
    | none => readLoop answers (setShort s)

/-- `NextFrame()` (43 R162): in a terminal state "raise the stored code", else the loop. -/
def sourceNextFrame (answers : List Answer) (s : State) : State × List Answer :=
  match s.syncState with
  | .eos => (raise .endOfStream s, answers)
  | .terr => (raise .transportError s, answers)
  | .ovf => (raise .bufferOverflow s, answers)
  | _ => topLoop answers { s with cmdBusy := true }

/-- The transport's answers as port inputs: to the reads numbered from `n` up, in order. -/
def numberedAnswers : Nat → List Answer → List Input
  | _, [] => []
  | n, a :: rest => .answer n a :: numberedAnswers (n + 1) rest

end Sys2Proof.Machine
end

