-- ==== Sys2Proof/Safety.lean ====
section
/-! DEFINITION. The terms claims are stated in: runs, the invariants of the block (spec/10_state.md R25, R26, R28,
R31), the environment's duties (spec/60_exceptions.md R214), and what has been answered. -/

namespace Sys2Proof.Machine

/-- `k` steps, stopping at the first fault or refusal. -/
def runSteps : Nat → State → Host.Outcome State Fault Refusal
  | 0, s => .next s
  | k + 1, s =>
    match step s with
    | .next t => runSteps k t
    | .fault r => .fault r
    | .refused r => .refused r

/-- NEXT_FRAME is in flight exactly in CHECK, READ and SCAN (10 R24). -/
def SyncState.inFlight : SyncState → Bool
  | .idle => false
  | .check => true
  | .read => true
  | .scan => true
  | .eos => false
  | .terr => false
  | .ovf => false

/-- The terminal states, "sticky until reset" (10 R24, 60 R207). -/
def SyncState.terminal : SyncState → Bool
  | .idle => false
  | .check => false
  | .read => false
  | .scan => false
  | .eos => true
  | .terr => true
  | .ovf => true

/-- A frame decodes at an offset of BUF. -/
def decodesAt (s : State) (k : Nat) : Prop := ∃ f, decodeAt s.cfg s.buf k = .ok f

/-- BUF holds no decodable frame at any offset. -/
def NoFrame (s : State) : Prop := ∀ k, ¬ decodesAt s k

/-- The invariants of 10 R31, letter by letter. In (e) the command in flight, if any, is NEXT_FRAME: no other command
is in flight between two steps (20 R46), so its second case never occurs here. -/
structure SyncInv (s : State) : Prop where
  a : s.syncState = .scan → s.short = false ∧ s.cfg.minMessageSize ≤ s.buf.length
  b : s.syncState = .read → s.buf ≠ [] → ∀ k, k + s.cfg.minMessageSize ≤ s.buf.length → ¬ decodesAt s k
  c : s.syncState = .idle → s.short = true → NoFrame s
  d : s.short = true → NoFrame s
  e : s.syncState = .idle → s.cmdBusy = false

/-- The model's invariant: 10 R31 with what its proof rests on and the rules that range over all states. -/
structure BlockInv (s : State) : Prop where
  /-- The configuration is one the spec gives behaviour for (00 R13). -/
  config : s.cfg.Specified
  /-- 10 R31. -/
  sync : SyncInv s
  /-- CMD_BUSY is 1 exactly while a NEXT_FRAME is in flight (10 R24, R28). -/
  busy : s.cmdBusy = s.syncState.inFlight
  /-- 10 R25: while SCAN, `CUR <= |BUF| - MIN_MESSAGE_SIZE`. -/
  cursor : s.syncState = .scan → s.cur + s.cfg.minMessageSize ≤ s.buf.length
  /-- CUR is 0 outside SCAN (43 R159, R161: every way out of SCAN writes 0). -/
  cursorHome : s.syncState ≠ .scan → s.cur = 0
  /-- The offsets below CUR have been tried and failed (43 R160). -/
  scanned : s.syncState = .scan → ∀ k, k < s.cur → ¬ decodesAt s k
  /-- 10 R26: BUF's length never exceeds BUF_CAP. -/
  memory : Memory.wf s.cfg.bufCap s.buf = true
  /-- Abandoned reads are reads that were issued, each awaiting one answer (70 R231). -/
  abandonedIssued : ∀ n, n ∈ s.abandoned → 1 ≤ n ∧ n ≤ s.reads
  abandonedOnce : s.abandoned.Nodup
  /-- The outstanding read is the newest one and is not an abandoned one (43 R150: at most one is outstanding). -/
  outstanding : s.syncState = .read → 1 ≤ s.reads ∧ s.reads ∉ s.abandoned

/-- The environment keeps its duties of 60 R214 at its next input: no transfer while a command is in flight and the
block waits for the transport; an answer, from a source or not, only to a read that is outstanding or abandoned, and no longer than READ_MAX.
An input that stands behind the block's own steps has not arrived yet. -/
def DutiesKept (s : State) : Prop :=
  match s.inputs with
  | .transfer _ _ :: _ => s.syncState ≠ .read
  | .answer n a :: _ =>
    s.syncState = .check ∨ s.syncState = .scan ∨
      (Answer.size a ≤ s.cfg.readMax ∧ ((s.syncState = .read ∧ n = s.reads) ∨ n ∈ s.abandoned))
  | .stream src :: _ =>
    s.syncState = .read → ∀ p, AnswerSource.next s.cfg.readMax s.reads src = some p → Answer.size p.1 ≤ s.cfg.readMax
  | _ => True

/-- The number of responses on the response port. -/
def responseCount (s : State) : Nat :=
  s.out.countP (fun o => match o with | .response _ => true | .transportRead _ _ => false)

/-- Whether the next step accepts a transfer: one is next and CMD_BUSY = 0 (30 R60). -/
def acceptsTransfer (s : State) : Bool :=
  match s.inputs with
  | .transfer _ _ :: _ => !s.cmdBusy
  | _ => false

/-- Whether the next step is a reset. -/
def takesReset (s : State) : Bool :=
  match s.inputs with
  | .reset :: _ => true
  | _ => false

/-- The instruction the next step accepts, if it accepts a legal transfer. -/
def acceptedInstr (s : State) : Option Instr :=
  match s.inputs with
  | .transfer w p :: _ =>
    if s.cmdBusy then none
    else
      match decodeCmd w p with
      | .ok i => some i
      | .error _ => none
  | _ => none

/-- A valid frame (30 R62), in the rule's own words. -/
def ValidFrame (alg : CrcAlg) (w : List Byte) : Prop :=
  w.length = (byteOf w 4).toNat + 10 ∧ 0 < (byteOf w 4).toNat ∧ crc16 alg w = 0x0000

/-- The illegal transfers (30 R74), in the rule's own words: (a) a reserved opcode; (b) RSV bits of the opcode's
format that are not all zero (R69 to R72); (c) a payload on a command whose payload must be empty. -/
def IllegalTransfer (w : U16) (p : List Byte) : Prop :=
  ((opcOf w).toNat = 0 ∨ 9 ≤ (opcOf w).toNat) ∨
  (((opcOf w).toNat ∈ [1, 3, 5, 7, 8] ∧ w.extractLsb' 0 12 ≠ 0) ∨
    ((opcOf w).toNat ∈ [2, 4] ∧ w.extractLsb' 8 4 ≠ 0) ∨
    ((opcOf w).toNat = 6 ∧ w.getLsbD 11 = true)) ∨
  ((opcOf w).toNat ∈ [1, 2, 3, 4, 5, 8] ∧ p ≠ [])

/-- The inputs left after a step that takes no input but a pause. -/
def afterPause (s : State) : List Input :=
  match s.inputs with
  | .wait :: rest => rest
  | l => l

/-- No reset and no pause is next: until the block is at rest, no input is taken. -/
def undisturbed (s : State) : Bool :=
  match s.inputs with
  | .reset :: _ => false
  | .wait :: _ => false
  | _ => true

/-- The machine after power-on, in that environment. -/
def startedWith (inputs : List Input) : State := { State.reset with inputs := inputs }

/-- The responses on the response port, oldest first. -/
def responses (s : State) : List Response :=
  s.out.filterMap (fun o => match o with | .response r => some r | .transportRead _ _ => none)

/-- The chunks that a source answers `n` reads with, from the read of that number on, if it answers each of them with a
non-empty chunk. -/
def AnswerSource.chunks (readMax : Nat) : Nat → Nat → AnswerSource → Option (List (List Byte))
  | _, 0, _ => some []
  | read, n + 1, src =>
    match AnswerSource.next readMax read src with
    | some (.chunk (b :: c), src') => (AnswerSource.chunks readMax (read + 1) n src').map ((b :: c) :: ·)
    | _ => none

/-- The transport answers for ever "with chunks in which no frame validates" (43 R164): however many reads it has
answered, each got a chunk of 1 to READ_MAX bytes, and BUF with all of them holds no frame. -/
def EndlessGarbage (s : State) (src : AnswerSource) : Prop :=
  ∀ n, ∃ cs, AnswerSource.chunks s.cfg.readMax s.reads n src = some cs ∧
    (∀ c, c ∈ cs → c.length ≤ s.cfg.readMax) ∧ ∀ k f, decodeAt s.cfg (s.buf ++ cs.flatten) k ≠ .ok f

/-- The transfers of a list as host inputs, in order. -/
def transferInputs (ts : List Transfer) : List Input := ts.map (fun t => .transfer t.word t.payload)

end Sys2Proof.Machine
end

