-- ==== Sys2Proof/Certificates/Slice0/Obligations.lean ====
section
/-! DEFINITION. The statements about the model, from the numbered rules of spec/. A response is said with its own
record update, never through the operation that makes it. `s.cfg.Specified` is the premise of 00 R13: the spec gives
behaviour only for the values of R7 to R12 and takes the literals of 92 D28 at the source's values; every step keeps it
(Obligations.InvariantKeptByEveryStep).
Where the spec marks a rule as its own inference, '[derived: ...]' (10 R31, 41 R103 and R113, 42 R131 and R139 to R141,
43 R162 to R169) or '[from general knowledge ...]' (41 R101 and R102, the polynomial of log entry 7), OBLIGATIONS.json
gives the statement the basis 'derived'. The ports' inputs and outputs are the model's (log entries 1 to 4). -/

open Sys2Proof Sys2Proof.Machine

/-! ### Encoding -/

/-- 30 R69 to R75: decoding the encoding of a well-formed instruction gives it back, every operand at every value. -/
def Obligations.DecodeOfEncodeIsTheInstruction : Prop :=
  ∀ i : Instr, i.wf = true → decodeCmd (encode i).word (encode i).payload = .ok i

/-- 30 R69 to R75: a transfer that decodes is the encoding of the well-formed instruction it decodes to. -/
def Obligations.EncodeOfDecodedIsTheTransfer : Prop :=
  ∀ w p i, decodeCmd w p = .ok i → i.wf = true ∧ encode i = ⟨w, p⟩

/-- 30 R73: "At most one row is selected". -/
def Obligations.AtMostOneRowSelected : Prop :=
  ∀ w r₁ r₂, r₁ ∈ opcodeTable → r₂ ∈ opcodeTable → r₁.selects w = true → r₂.selects w = true → r₁ = r₂

/-- 30 R74, R75: the decoder answers Illegal exactly in the three cases. -/
def Obligations.IllegalExactlyInTheThreeCases : Prop :=
  ∀ w p, (∃ e, decodeCmd w p = .error e) ↔ IllegalTransfer w p

/-- 30 R74: an illegal transfer, in any of its three cases, changes no state and gets (IllegalCommand, none). -/
def Obligations.IllegalTransferChangesNoState : Prop :=
  ∀ s w p rest, s.inputs = .transfer w p :: rest → s.cmdBusy = false → IllegalTransfer w p →
    step s = .next { s with inputs := rest, out := s.out ++ [.response ⟨.illegalCommand, .noValue⟩] }

/-- 30 R73, R79: words written out from the opcode map decode to the commands they stand for. -/
def Obligations.TableWordsDecode : Prop :=
  decodeCmd 0x1000 [] = .ok .crcInit ∧ decodeCmd 0x2031 [] = .ok (.crcUpdate 0x31) ∧
  decodeCmd 0x3000 [] = .ok .crcRead ∧ decodeCmd 0x4010 [] = .ok (.setId 0x10) ∧
  decodeCmd 0x5000 [] = .ok .getId ∧ decodeCmd 0x6302 [0x05] = .ok (.encode .error 0x02 [0x05]) ∧
  decodeCmd 0x6401 [] = .ok (.encode (.unrecognized 4) 0x01 []) ∧
  decodeCmd 0x7000 [0x63, 0x00] = .ok (.decode [0x63, 0x00]) ∧ decodeCmd 0x8000 [] = .ok .nextFrame

/-- 30 R79, R80: lines of text and the transfers they stand for. -/
def Obligations.TextLinesAssemble : Prop :=
  assemble "crc.update 0x56".toList = some [⟨0x2056, []⟩] ∧ assemble "id.set 255 ; last".toList = some [⟨0x40FF, []⟩] ∧
  assemble "enc 0x02, error, [5]".toList = some [⟨0x6302, [0x05]⟩] ∧
  assemble "enc 0x01, fsel=7, []".toList = some [⟨0x6701, []⟩] ∧
  assemble "dec []".toList = some [⟨0x7000, []⟩] ∧ assemble "next".toList = some [⟨0x8000, []⟩] ∧
  assemble ".word 0x2001, [0x00]".toList = some [⟨0x2001, [0x00]⟩] ∧ assemble "crc.block []".toList = some [] ∧
  assemble "crc.of [7]".toList = some [⟨0x1000, []⟩, ⟨0x2007, []⟩, ⟨0x3000, []⟩]

/-! ### The step -/

/-- 30 R60, R75: a transfer that decodes, at a ready port, is executed, and the port has moved past it. -/
def Obligations.StepRunsTheDecodedCommand : Prop :=
  ∀ s w p rest i, s.inputs = .transfer w p :: rest → s.cmdBusy = false → decodeCmd w p = .ok i →
    step s = exec i { s with inputs := rest }

/-- 10 R28: while CMD_BUSY = 1 the command port accepts no command: the transfer stays where it is, or, with a read
outstanding, there is no step (60 R214; log entry 4). -/
def Obligations.BusyPortTakesNoTransfer : Prop :=
  ∀ s w p rest, BlockInv s → s.inputs = .transfer w p :: rest → s.cmdBusy = true →
    (s.syncState = .read → step s = .refused .transferWhileBusy) ∧
    (s.syncState ≠ .read → ∃ t, step s = .next t ∧ t.inputs = s.inputs ∧ t.localId = s.localId ∧ t.crcAcc = s.crcAcc)

/-- 20 R46, 41 R110 to R112, 42 R120 to R135, 43 R151: the frame of every command. Whatever form it takes, a command
leaves the configuration, CUR, BUF (each byte and their number), SHORT, the inputs and the reads alone; LOCAL_ID but
for SET_ID; CRC_ACC but for CRC_INIT and CRC_UPDATE; SYNC_STATE but for NEXT_FRAME. -/
def Obligations.CommandsKeepTheRestOfTheState : Prop :=
  ∀ i s t, exec i s = .next t →
    t.cfg = s.cfg ∧ t.cur = s.cur ∧ (∀ k, Memory.byteAt t.buf k = Memory.byteAt s.buf k) ∧ t.short = s.short ∧
    t.inputs = s.inputs ∧ t.reads = s.reads ∧ t.abandoned = s.abandoned ∧
    ((∀ b, i ≠ .setId b) → t.localId = s.localId) ∧
    (i ≠ .crcInit → (∀ b, i ≠ .crcUpdate b) → t.crcAcc = s.crcAcc) ∧
    (i ≠ .nextFrame → t.syncState = s.syncState ∧ t.cmdBusy = false)

/-! ### The CRC generator -/

/-- 41 R110: the command, and its transfer at a ready port. -/
def Obligations.CrcInitEffect : Prop :=
  ∀ s, s.cfg.Specified →
    exec .crcInit s =
      .next { s with crcAcc := 0x0000, cmdBusy := false, out := s.out ++ [.response ⟨.ok, .noValue⟩] } ∧
    ∀ rest, s.inputs = .transfer 0x1000 [] :: rest → s.cmdBusy = false → step s =
      .next { s with crcAcc := 0x0000, inputs := rest, out := s.out ++ [.response ⟨.ok, .noValue⟩] }

/-- 41 R111 with the byte step of R101 written out, eight shifts of the accumulator with the byte XORed in: the
command, and its transfer at a ready port. -/
def Obligations.CrcUpdateEffect : Prop :=
  ∀ s b c, s.cfg.Specified →
    c = (List.range 8).foldl (fun (c : U16) _ => if c.getLsbD 0 = true then (c >>> 1) ^^^ 0xA001 else c >>> 1)
      (s.crcAcc ^^^ b.setWidth 16) →
    exec (.crcUpdate b) s =
      .next { s with crcAcc := c, cmdBusy := false, out := s.out ++ [.response ⟨.ok, .noValue⟩] } ∧
    ∀ rest, s.inputs = .transfer (0x2000 ||| b.setWidth 16) [] :: rest → s.cmdBusy = false → step s =
      .next { s with crcAcc := c, inputs := rest, out := s.out ++ [.response ⟨.ok, .noValue⟩] }

/-- 41 R112: the command, and its transfer at a ready port. -/
def Obligations.CrcReadEffect : Prop :=
  ∀ s, exec .crcRead s =
      .next { s with cmdBusy := false, out := s.out ++ [.response ⟨.ok, .u16 s.crcAcc⟩] } ∧
    ∀ rest, s.inputs = .transfer 0x3000 [] :: rest → s.cmdBusy = false → step s =
      .next { s with inputs := rest, out := s.out ++ [.response ⟨.ok, .u16 s.crcAcc⟩] }

/-- 41 R113, 30 R80: `crc.of [s]`, issued at a ready port, leaves CRC_ACC = crc16(s) and reads it back; everything
else is untouched, and each command has its one response. -/
def Obligations.CrcOfComputesTheCrc : Prop :=
  ∀ s bytes rest, s.cmdBusy = false → s.inputs = transferInputs (crcOfTransfers bytes) ++ rest →
    runSteps (bytes.length + 2) s =
      .next { s with
        crcAcc := crc16 s.cfg.crcAlg bytes
        inputs := rest
        out := s.out ++ List.replicate (bytes.length + 1) (.response ⟨.ok, .noValue⟩) ++
          [.response ⟨.ok, .u16 (crc16 s.cfg.crcAlg bytes)⟩] }

/-- 41 R103: (a) composition, (b) zero bytes from zero, (c) the residue, with its counterexample for the other byte
order. -/
def Obligations.CrcLaws : Prop :=
  (∀ s t, crc16 CrcAlg.arc (s ++ t) = t.foldl (crcStep CrcAlg.arc) (crc16 CrcAlg.arc s)) ∧
  (crcStep CrcAlg.arc 0x0000 0x00 = 0x0000 ∧ ∀ n, crc16 CrcAlg.arc (List.replicate n 0x00) = 0x0000) ∧
  (∀ m, crc16 CrcAlg.arc (m ++ le16 (crc16 CrcAlg.arc m)) = 0x0000) ∧
  crc16 CrcAlg.arc ([0x31, 0x32, 0x33, 0x34, 0x35, 0x36, 0x37, 0x38, 0x39] ++ [0xBB, 0x3D]) = 0xC2E3

/-- 41 R104, first sentence: in a window with residue zero, changing any one byte gives another residue. -/
def Obligations.SingleByteChangeIsDetected : Prop :=
  ∀ w i b, crc16 CrcAlg.arc w = 0x0000 → i < w.length → b ≠ byteOf w i → crc16 CrcAlg.arc (w.set i b) ≠ 0x0000

/-! ### The codec -/

/-- 42 R120: the command, and its transfer at a ready port. -/
def Obligations.SetIdEffect : Prop :=
  ∀ s b, exec (.setId b) s =
      .next { s with localId := b, cmdBusy := false, out := s.out ++ [.response ⟨.ok, .noValue⟩] } ∧
    ∀ rest, s.inputs = .transfer (0x4000 ||| b.setWidth 16) [] :: rest → s.cmdBusy = false → step s =
      .next { s with localId := b, inputs := rest, out := s.out ++ [.response ⟨.ok, .noValue⟩] }

/-- 42 R122: the command, and its transfer at a ready port. -/
def Obligations.GetIdEffect : Prop :=
  ∀ s, exec .getId s = .next { s with cmdBusy := false, out := s.out ++ [.response ⟨.ok, .byte s.localId⟩] } ∧
    ∀ rest, s.inputs = .transfer 0x5000 [] :: rest → s.cmdBusy = false → step s =
      .next { s with inputs := rest, out := s.out ++ [.response ⟨.ok, .byte s.localId⟩] }

/-- 42 R130: the ENCODE command on every payload and every selector: the two errors, length first, or wire bytes; in a
specified configuration, the header, the data and the checksum with its low byte first. The second clause takes every selector of that form: its numbers 4 to 7 are those
that 30 R65 does not recognize; that the ill-formed terms with 0 to 3, which no transfer stands for, get InvalidFunction
too is the model's choice (log entry 19). -/
def Obligations.EncodeEffect : Prop :=
  ∀ s sel dest data,
    (255 < data.length → exec (.encode sel dest data) s =
      .next { s with cmdBusy := false, out := s.out ++ [.response ⟨.argumentOutOfRange, .noValue⟩] }) ∧
    (∀ n, data.length ≤ 255 → sel = .unrecognized n → exec (.encode sel dest data) s =
      .next { s with cmdBusy := false, out := s.out ++ [.response ⟨.invalidFunction, .noValue⟩] }) ∧
    (data.length ≤ 255 → (∀ n, sel ≠ .unrecognized n) → ∃ v, exec (.encode sel dest data) s =
      .next { s with cmdBusy := false, out := s.out ++ [.response ⟨.ok, .bytes v⟩] }) ∧
    (∀ code m, s.cfg.Specified → data.length ≤ 255 →
      (sel, code) ∈ [(FunSel.reply, (0x06 : Byte)), (.read, 0x0B), (.write, 0x0C), (.error, 0x15)] →
      m = [dest, 0x00, s.localId, 0x00, BitVec.ofNat 8 data.length, 0x00, 0x00, code] ++ data →
      exec (.encode sel dest data) s =
        .next { s with
          cmdBusy := false
          out := s.out ++ [.response ⟨.ok, .bytes (m ++ [(crc16 s.cfg.crcAlg m).setWidth 8,
            (crc16 s.cfg.crcAlg m >>> 8).setWidth 8])⟩] })

/-- 42 R130, R132: a transfer with ENCODE's opcode at a ready port, its checks in their order: the spelling, then the
payload length, then the function selector; a failed ENCODE writes no state and returns no bytes. Else the wire bytes,
in a specified configuration with the code that FSEL selects. -/
def Obligations.EncodeChecksInOrder : Prop :=
  ∀ s w p rest, s.inputs = .transfer w p :: rest → s.cmdBusy = false → (opcOf w).toNat = 6 →
    (w.getLsbD 11 = true →
      step s = .next { s with inputs := rest, out := s.out ++ [.response ⟨.illegalCommand, .noValue⟩] }) ∧
    (w.getLsbD 11 = false → 255 < p.length →
      step s = .next { s with inputs := rest, out := s.out ++ [.response ⟨.argumentOutOfRange, .noValue⟩] }) ∧
    (w.getLsbD 11 = false → p.length ≤ 255 → 4 ≤ (fselOf w).toNat →
      step s = .next { s with inputs := rest, out := s.out ++ [.response ⟨.invalidFunction, .noValue⟩] }) ∧
    (w.getLsbD 11 = false → p.length ≤ 255 → (fselOf w).toNat < 4 →
      ∃ v, step s = .next { s with inputs := rest, out := s.out ++ [.response ⟨.ok, .bytes v⟩] }) ∧
    (∀ code m, s.cfg.Specified → w.getLsbD 11 = false → p.length ≤ 255 →
      ([0x06, 0x0B, 0x0C, 0x15] : List Byte)[(fselOf w).toNat]? = some code →
      m = [w.setWidth 8, 0x00, s.localId, 0x00, BitVec.ofNat 8 p.length, 0x00, 0x00, code] ++ p →
      step s = .next { s with
        inputs := rest
        out := s.out ++ [.response ⟨.ok, .bytes (m ++ [(crc16 s.cfg.crcAlg m).setWidth 8,
          (crc16 s.cfg.crcAlg m >>> 8).setWidth 8])⟩] })

/-- 42 R131: the shape of what a successful ENCODE returns. -/
def Obligations.EncodedFrameShape : Prop :=
  ∀ s sel dest data v,
    exec (.encode sel dest data) s = .next { s with cmdBusy := false, out := s.out ++ [.response ⟨.ok, .bytes v⟩] } →
    crc16 s.cfg.crcAlg v = 0x0000 ∧
    (s.cfg.Specified → v.length = data.length + 10 ∧ byteOf v 1 = 0x00 ∧ byteOf v 3 = 0x00 ∧ byteOf v 5 = 0x00 ∧
      byteOf v 6 = 0x00 ∧ (byteOf v 4).toNat = data.length)

/-- 42 R135, R136: the DECODE command, by the five cases of R136 in their order; the transfer 0x7000 with any payload
is that command. -/
def Obligations.DecodeEffect : Prop :=
  ∀ s w, s.cfg.Specified →
    (∀ rest, s.inputs = .transfer 0x7000 w :: rest → s.cmdBusy = false →
      step s = exec (.decode w) { s with inputs := rest }) ∧
    (w.length < 11 → exec (.decode w) s =
      .next { s with cmdBusy := false, out := s.out ++ [.response ⟨.frameTooShort, .noValue⟩] }) ∧
    (11 ≤ w.length → (byteOf w 4).toNat = 0 → exec (.decode w) s =
      .next { s with cmdBusy := false, out := s.out ++ [.response ⟨.lengthZero, .noValue⟩] }) ∧
    (11 ≤ w.length → 0 < (byteOf w 4).toNat → w.length < (byteOf w 4).toNat + 10 → exec (.decode w) s =
      .next { s with cmdBusy := false, out := s.out ++ [.response ⟨.frameTooShort, .noValue⟩] }) ∧
    (11 ≤ w.length → 0 < (byteOf w 4).toNat → (byteOf w 4).toNat + 10 ≤ w.length →
      crc16 CrcAlg.arc (w.take ((byteOf w 4).toNat + 10)) ≠ 0x0000 → exec (.decode w) s =
      .next { s with cmdBusy := false, out := s.out ++ [.response ⟨.checksumInvalid, .noValue⟩] }) ∧
    (11 ≤ w.length → 0 < (byteOf w 4).toNat → (byteOf w 4).toNat + 10 ≤ w.length →
      crc16 CrcAlg.arc (w.take ((byteOf w 4).toNat + 10)) = 0x0000 → exec (.decode w) s =
      .next { s with
        cmdBusy := false
        out := s.out ++ [.response ⟨.ok, .frame
          { dst := byteOf w 0
            src := byteOf w 2
            len := byteOf w 4
            fcode := byteOf w 7
            ftag := tagOf s.cfg.functionCodes (byteOf w 7)
            data := (w.drop 8).take (byteOf w 4).toNat
            checksum := BitVec.ofNat 16 ((byteOf w (8 + (byteOf w 4).toNat)).toNat +
              256 * (byteOf w (9 + (byteOf w 4).toNat)).toNat) }⟩] })

/-- 42 R138: the bytes beyond `L + 10` affect neither the result nor the residue. -/
def Obligations.DecodeIgnoresTrailingBytes : Prop :=
  ∀ (cfg : Config) (w x : List Byte), cfg.Specified → 11 ≤ w.length → (byteOf w 4).toNat + 10 ≤ w.length →
    decodeFrame cfg (w ++ x) = decodeFrame cfg w

/-- 42 R139 (and 41 R104 for the offsets other than 4): one changed byte in a valid frame. At any offset but 4 it is
detected; a larger length byte leaves the window incomplete, and 0 is LengthZero; a smaller length byte is accepted
when the shorter window's last two bytes happen to be its checksum, as in V-D12. -/
def Obligations.ChangedByteOfAValidFrame : Prop :=
  (∀ (cfg : Config) (w : List Byte) (b : Byte), cfg.Specified → ValidFrame cfg.crcAlg w →
    (∀ i, i ≠ 4 → i < w.length → b ≠ byteOf w i → decodeFrame cfg (w.set i b) = .error .checksumInvalid) ∧
    ((byteOf w 4).toNat < b.toNat → decodeFrame cfg (w.set 4 b) = .error .frameTooShort) ∧
    (b.toNat = 0 → decodeFrame cfg (w.set 4 b) = .error .lengthZero) ∧
    (0 < b.toNat → b.toNat < (byteOf w 4).toNat →
      crc16 cfg.crcAlg ((w.set 4 b).take (b.toNat + 8)) =
        BitVec.ofNat 16 ((byteOf w (b.toNat + 8)).toNat + 256 * (byteOf w (b.toNat + 9)).toNat) →
      ∃ f, decodeFrame cfg (w.set 4 b) = .ok f)) ∧
  ∃ w f, ValidFrame CrcAlg.arc w ∧ 1 < (byteOf w 4).toNat ∧ decodeFrame Config.default (w.set 4 1) = .ok f

/-- 42 R137, 30 R66: two windows that differ only at the reserved offsets 1, 3, 5 and 6, when both are accepted, give
the same record. -/
def Obligations.ReservedBytesAreNotReported : Prop :=
  ∀ (cfg : Config) (w w' : List Byte) (f f' : Frame), cfg.Specified → (∀ i, i ∉ [1, 3, 5, 6] → w[i]? = w'[i]?) →
    decodeFrame cfg w = .ok f → decodeFrame cfg w' = .ok f' → f = f'

/-- 42 R140: the round trip, for every destination, every named function, every LOCAL_ID and every payload of 1 to
255 bytes. -/
def Obligations.DecodeOfEncodedFrame : Prop :=
  ∀ s sel code tag dest data, s.cfg.Specified → 1 ≤ data.length → data.length ≤ 255 →
    (sel, code, tag) ∈ [(FunSel.reply, (0x06 : Byte), FTag.reply), (.read, 0x0B, .read), (.write, 0x0C, .write),
      (.error, 0x15, .error)] →
    ∃ v, exec (.encode sel dest data) s =
        .next { s with cmdBusy := false, out := s.out ++ [.response ⟨.ok, .bytes v⟩] } ∧
      exec (.decode v) s =
        .next { s with
          cmdBusy := false
          out := s.out ++ [.response ⟨.ok, .frame
            { dst := dest
              src := s.localId
              len := BitVec.ofNat 8 data.length
              fcode := code
              ftag := tag
              data := data
              checksum := crc16 s.cfg.crcAlg (v.take (data.length + 8)) }⟩] }

/-- 42 R141: the 10-byte frame of an empty payload is FrameTooShort on its own, LengthZero with any byte after it, and
so never what a trial decode at an offset of BUF returns. -/
def Obligations.EmptyPayloadFrameIsNeverAccepted : Prop :=
  ∀ s sel dest v, s.cfg.Specified →
    exec (.encode sel dest []) s = .next { s with cmdBusy := false, out := s.out ++ [.response ⟨.ok, .bytes v⟩] } →
    v.length = 10 ∧ decodeFrame s.cfg v = .error .frameTooShort ∧
    (∀ b x, decodeFrame s.cfg (v ++ b :: x) = .error .lengthZero) ∧
    (∀ m k x f, m.drop k = v ++ x → decodeAt s.cfg m k ≠ .ok f)

/-- 30 R62: a byte sequence is a valid frame exactly when Decode accepts it and it has no byte beyond its window. -/
def Obligations.ValidFrameIffAccepted : Prop :=
  ∀ (cfg : Config) (w : List Byte), cfg.Specified →
    (ValidFrame cfg.crcAlg w ↔ w.length = (byteOf w 4).toNat + 10 ∧ ∃ f, decodeFrame cfg w = .ok f)

/-- 30 R63, 00 R7, R8: an encoded frame has `|data| + 10` bytes, 10 to 265; a valid one has 11 to 265; no 10-byte
sequence is ever accepted. -/
def Obligations.FrameSizesAreBounded : Prop :=
  (∀ s sel dest data v, s.cfg.Specified → exec (.encode sel dest data) s =
      .next { s with cmdBusy := false, out := s.out ++ [.response ⟨.ok, .bytes v⟩] } →
    v.length = data.length + 10 ∧ 10 ≤ v.length ∧ v.length ≤ s.cfg.maxMessageSize) ∧
  (∀ (cfg : Config) (w : List Byte), cfg.Specified → ValidFrame cfg.crcAlg w →
    cfg.minMessageSize ≤ w.length ∧ w.length ≤ cfg.maxMessageSize) ∧
  (∀ (cfg : Config) (w : List Byte) (f : Frame), cfg.Specified → w.length = 10 → decodeFrame cfg w ≠ .ok f)

/-- 30 R64: the function tags and their numbers, over all 256 codes. -/
def Obligations.FunctionTags : Prop :=
  ∀ (cfg : Config) (codes : FunctionCodes), cfg.Specified → codes = cfg.functionCodes →
    FTag.number (tagOf codes 0x06) = 0 ∧ FTag.number (tagOf codes 0x0B) = 1 ∧ FTag.number (tagOf codes 0x0C) = 2 ∧
    FTag.number (tagOf codes 0x15) = 3 ∧
    ∀ c : Byte, c ≠ 0x06 → c ≠ 0x0B → c ≠ 0x0C → c ≠ 0x15 → FTag.number (tagOf codes c) = 4

/-! ### The synchronizer -/

/-- 43 R151: NEXT_FRAME at acceptance, in each of the four states it can be accepted in. -/
def Obligations.NextFrameAcceptance : Prop :=
  ∀ s,
    (∀ rest, s.inputs = .transfer 0x8000 [] :: rest → s.cmdBusy = false →
      step s = exec .nextFrame { s with inputs := rest }) ∧
    (s.syncState = .idle → exec .nextFrame s = .next { s with cmdBusy := true, syncState := .check }) ∧
    (s.syncState = .eos → exec .nextFrame s =
      .next { s with cmdBusy := false, out := s.out ++ [.response ⟨.endOfStream, .noValue⟩] }) ∧
    (s.syncState = .terr → exec .nextFrame s =
      .next { s with cmdBusy := false, out := s.out ++ [.response ⟨.transportError, .noValue⟩] }) ∧
    (s.syncState = .ovf → exec .nextFrame s =
      .next { s with cmdBusy := false, out := s.out ++ [.response ⟨.bufferOverflow, .noValue⟩] })

/-- 43 R152, R153: the CHECK step: read, flag and read, or scan. -/
def Obligations.CheckStepRule : Prop :=
  ∀ s, s.cfg.Specified → s.cmdBusy = true → s.syncState = .check → takesReset s = false →
    (s.buf = [] ∨ s.short = true →
      step s = .next { s with
        inputs := afterPause s
        syncState := .read
        reads := s.reads + 1
        out := s.out ++ [.transportRead (s.reads + 1) s.cfg.readMax] }) ∧
    (s.buf ≠ [] → s.short = false → s.buf.length < 11 →
      step s = .next { s with
        inputs := afterPause s
        short := true
        syncState := .read
        reads := s.reads + 1
        out := s.out ++ [.transportRead (s.reads + 1) s.cfg.readMax] }) ∧
    (s.short = false → 11 ≤ s.buf.length →
      step s = .next { s with inputs := afterPause s, cur := 0, syncState := .scan })

/-- 43 R159, R160, R161: the SCAN step: a match, the next offset, or no offset left. -/
def Obligations.ScanStepRule : Prop :=
  ∀ s, s.cfg.Specified → s.cmdBusy = true → s.syncState = .scan → takesReset s = false →
    (∀ f, decodeAt s.cfg s.buf s.cur = .ok f →
      step s = .next { s with
        inputs := afterPause s
        buf := s.buf.drop (s.cur + f.len.toNat + 10)
        cur := 0
        syncState := .idle
        cmdBusy := false
        out := s.out ++ [.response ⟨.ok, .frame f⟩] }) ∧
    (∀ e, decodeAt s.cfg s.buf s.cur = .error e → s.cur + 11 < s.buf.length →
      step s = .next { s with inputs := afterPause s, cur := s.cur + 1 }) ∧
    (∀ e, decodeAt s.cfg s.buf s.cur = .error e → s.cur + 11 = s.buf.length →
      step s = .next { s with inputs := afterPause s, short := true, cur := 0, syncState := .check })

/-- 43 R154, R155, R156, R158: READ's four answers; a chunk that would exceed BUF_CAP is discarded. -/
def Obligations.ReadAnswerRules : Prop :=
  ∀ s a rest, s.cmdBusy = true → s.syncState = .read → s.inputs = .answer s.reads a :: rest →
    (a = .error → step s = .next { s with
      inputs := rest, syncState := .terr, cmdBusy := false
      out := s.out ++ [.response ⟨.transportError, .noValue⟩] }) ∧
    (a = .fin ∨ a = .chunk [] → step s = .next { s with
      inputs := rest, syncState := .eos, cmdBusy := false
      out := s.out ++ [.response ⟨.endOfStream, .noValue⟩] }) ∧
    (∀ c, a = .chunk c → 1 ≤ c.length → c.length ≤ s.cfg.readMax →
      (∀ cap, s.cfg.bufCap = some cap → s.buf.length + c.length ≤ cap) →
      step s = .next { s with inputs := rest, buf := s.buf ++ c, short := false, syncState := .check }) ∧
    (∀ c cap, a = .chunk c → 1 ≤ c.length → c.length ≤ s.cfg.readMax → s.cfg.bufCap = some cap →
      cap < s.buf.length + c.length →
      step s = .next { s with
        inputs := rest, syncState := .ovf, cmdBusy := false
        out := s.out ++ [.response ⟨.bufferOverflow, .noValue⟩] })

/-- 43 R153, R164: in READ the block takes no step of its own: with no answer it waits, for ever if need be. That waiting
is a run of steps that answer the same state is the model's choice (log entry 15). -/
def Obligations.ReadWaitsForTheTransport : Prop :=
  ∀ s, s.syncState = .read → s.inputs = [] → ∀ k, runSteps k s = .next s

/-- 43 R157: an answer when no read is outstanding, or a chunk longer than READ_MAX, has no step. (An answer to a read
that a reset abandoned is 70 R231's; the numbers of reads are the model's, log entry 3.) -/
def Obligations.UnsolicitedAnswerHasNoStep : Prop :=
  ∀ s n a rest, s.inputs = .answer n a :: rest → ownStepReady s = false →
    (s.cfg.readMax < Answer.size a → step s = .refused .chunkTooLong) ∧
    (Answer.size a ≤ s.cfg.readMax → s.syncState ≠ .read → n ∉ s.abandoned → step s = .refused .answerWithoutRead)

/-- 43 R153: entering READ issues exactly one read, of READ_MAX bytes, and nothing else issues one. -/
def Obligations.OneReadOnEnteringRead : Prop :=
  ∀ s t, step s = .next t →
    (s.syncState ≠ .read ∧ t.syncState = .read → t.reads = s.reads + 1 ∧
      t.out = s.out ++ [.transportRead (s.reads + 1) s.cfg.readMax]) ∧
    (¬ (s.syncState ≠ .read ∧ t.syncState = .read) → t.reads = s.reads ∧
      ∀ n m, Output.transportRead n m ∈ t.out → Output.transportRead n m ∈ s.out)

/-- 43 R163: the scan's range limit loses no frame. -/
def Obligations.ScanLimitLosesNoFrame : Prop :=
  ∀ (cfg : Config) (m : List Byte) (k : Nat), cfg.Specified → m.length < k + cfg.minMessageSize → decodeAt cfg m k = .error .frameTooShort

/-- 43 R165: the bytes left in BUF at EndOfStream or TransportError hold no frame. -/
def Obligations.EndOfStreamLosesNoFrame : Prop :=
  ∀ s a rest, BlockInv s → s.syncState = .read → s.inputs = .answer s.reads a :: rest → a = .fin ∨ a = .error →
    ∃ t, step s = .next t ∧ t.syncState.terminal = true ∧ t.buf = s.buf ∧ NoFrame t

/-- 43 R169: a trial decode at an offset with 265 bytes behind it has the same result at every later scan. -/
def Obligations.CompleteWindowIsSettled : Prop :=
  ∀ (cfg : Config) (m c : List Byte) (k : Nat), cfg.Specified → k + cfg.maxMessageSize ≤ m.length → decodeAt cfg (m ++ c) k = decodeAt cfg m k

/-- 20 R48, 43 R160: NEXT_FRAME returns the frame at the lowest offset that validates, drops the garbage before it and
keeps every byte after it. -/
def Obligations.LowestValidFrameIsReturned : Prop :=
  ∀ s g w x, BlockInv s → s.syncState = .check → s.short = false → undisturbed s = true → s.buf = g ++ w ++ x →
    ValidFrame s.cfg.crcAlg w → (∀ k, k < g.length → ¬ decodesAt s k) →
    ∃ n f, decodeFrame s.cfg w = .ok f ∧
      runSteps n s = .next { s with
        buf := x
        cur := 0
        syncState := .idle
        cmdBusy := false
        out := s.out ++ [.response ⟨.ok, .frame f⟩] }

/-- 43 R162, R164: from CHECK the block reaches READ or IDLE in at most `|BUF| - MIN_MESSAGE_SIZE + 3` steps of its
own, taking no input. -/
def Obligations.StretchIsBounded : Prop :=
  ∀ s, BlockInv s → s.syncState = .check → undisturbed s = true →
    ∃ n t, n ≤ s.buf.length - s.cfg.minMessageSize + 3 ∧ runSteps n s = .next t ∧ t.inputs = s.inputs ∧
      (t.syncState = .read ∨ t.syncState = .idle)

/-- 43 R162: the stepwise machine and the source's loop give the same responses, the same reads and the same final
state, on every sequence of transport answers. -/
def Obligations.StepsEqualTheSourceLoop : Prop :=
  ∀ s answers, s.cfg.Specified → s.cmdBusy = false → s.syncState.inFlight = false → s.cur = 0 →
    (∀ a, a ∈ answers → Answer.size a ≤ s.cfg.readMax) →
    s.inputs = .transfer 0x8000 [] :: numberedAnswers (s.reads + 1) answers →
    ∃ n, runSteps n s =
      .next { (sourceNextFrame answers s).1 with
        inputs := numberedAnswers ((sourceNextFrame answers s).1.reads + 1) (sourceNextFrame answers s).2 }

/-- 43 R168: resynchronization. In a stream of two valid frames among garbage in which no other offset starts a window
that decodes, three NEXT_FRAMEs return the two frames and EndOfStream, for every split into chunks. NEXT_FRAME is said
through the loop of R162, which the machine equals (Obligations.StepsEqualTheSourceLoop). -/
def Obligations.ResynchronizesOnEverySplit : Prop :=
  ∀ (s : State) (g₁ w₁ g₂ w₂ : List Byte) (chunks : List (List Byte)) (f₁ f₂ : Frame), s.cfg.Specified → s.cfg.bufCap = none → s.syncState = .idle → s.buf = [] →
    s.short = false → decodeFrame s.cfg w₁ = .ok f₁ → decodeFrame s.cfg w₂ = .ok f₂ →
    ValidFrame s.cfg.crcAlg w₁ → ValidFrame s.cfg.crcAlg w₂ →
    (∀ k f, k ≠ g₁.length → k ≠ (g₁ ++ w₁ ++ g₂).length → decodeAt s.cfg (g₁ ++ w₁ ++ g₂ ++ w₂) k ≠ .ok f) →
    (∀ c, c ∈ chunks → c ≠ []) → chunks.flatten = g₁ ++ w₁ ++ g₂ ++ w₂ →
    ∀ r₁ r₂ r₃, r₁ = sourceNextFrame (chunks.map Answer.chunk ++ [.fin]) s →
      r₂ = sourceNextFrame r₁.2 r₁.1 → r₃ = sourceNextFrame r₂.2 r₂.1 →
      responses r₃.1 = responses s ++ [⟨.ok, .frame f₁⟩, ⟨.ok, .frame f₂⟩, ⟨.endOfStream, .noValue⟩]

/-- 43 R166, 95 V-S9: the frame returned depends on the split. One stream of 24 bytes, in one chunk and in two: the
outer frame, or the inner one. -/
def Obligations.ChunkingChangesTheFrame : Prop :=
  ∃ (stream : List Byte) (f₁ f₂ : Frame), f₁ ≠ f₂ ∧
    (∃ n t, runSteps n (startedWith (.transfer 0x8000 [] :: numberedAnswers 1 [.chunk stream])) = .next t ∧ responses t = [⟨.ok, .frame f₁⟩]) ∧
    (∃ n t, runSteps n (startedWith (.transfer 0x8000 [] ::
        numberedAnswers 1 [.chunk (stream.take 22), .chunk (stream.drop 22)])) = .next t ∧ responses t = [⟨.ok, .frame f₂⟩])

/-! ### Errors, reset and the whole machine -/

/-- 60 R201: the status codes. -/
def Obligations.StatusCodes : Prop :=
  [Status.ok, .frameTooShort, .checksumInvalid, .lengthZero, .endOfStream, .transportError, .bufferOverflow,
    .invalidFunction, .argumentOutOfRange, .illegalCommand].map Status.code =
    [0x00, 0x01, 0x02, 0x03, 0x10, 0x11, 0x12, 0x20, 0x21, 0x22] ∧
  ∀ a b, Status.code a = Status.code b → a = b

/-- 60 R203: FrameTooShort, LengthZero and ChecksumInvalid never reach a response of NEXT_FRAME: while it is in
flight, a step's responses are a frame or one of the three stream errors. -/
def Obligations.DecodeErrorsStayInside : Prop :=
  ∀ s t r, step s = .next t → s.cmdBusy = true → .response r ∈ t.out → .response r ∉ s.out →
    (r.status = .ok ∧ ∃ f, r.value = .frame f) ∨
    (r.value = .noValue ∧ r.status ∈ [.endOfStream, .transportError, .bufferOverflow])

/-- 60 R207, 70 R232, R239: the terminal states are sticky: no step but a reset leaves one or issues a read; a
NEXT_FRAME gets the stored code; a reset gives IDLE. -/
def Obligations.TerminalStatesAreSticky : Prop :=
  ∀ s, s.syncState.terminal = true → s.cmdBusy = false →
    (∀ t, takesReset s = false → step s = .next t →
      t.syncState = s.syncState ∧ t.reads = s.reads ∧ t.buf = s.buf ∧ t.cmdBusy = false) ∧
    (∀ rest, s.inputs = .transfer 0x8000 [] :: rest → ∃ e,
      (s.syncState, e) ∈ [(SyncState.eos, Status.endOfStream), (.terr, .transportError), (.ovf, .bufferOverflow)] ∧
      step s = .next { s with inputs := rest, out := s.out ++ [.response ⟨e, .noValue⟩] }) ∧
    (takesReset s = true → ∃ t, step s = .next t ∧ t.syncState = .idle ∧ t.buf = [] ∧ t.cmdBusy = false)

/-- 70 R230: reset, at any step: every element of 10_state.md at its reset value; a command in flight ends with no
response (R231). Power-on is a reset: it leaves the model's State.reset. -/
def Obligations.ResetSetsEveryElement : Prop :=
  (∀ s rest, s.cfg.Specified → s.inputs = .reset :: rest →
    ∃ t, step s = .next t ∧ t.localId = 0x63 ∧ t.crcAcc = 0x0000 ∧ t.syncState = .idle ∧ t.cur = 0 ∧ t.buf = [] ∧
      t.short = false ∧ t.cmdBusy = false ∧ t.out = s.out ∧ t.inputs = rest) ∧
  step (startedWith [.reset]) = .next State.reset

/-- 70 R230, R233: the block right after power-on: every element at its reset value, and the port ready, so that the
first transfer, whichever it is, gets its step (20 R46: it is executed, or answered as illegal). -/
def Obligations.PowerOnIsReady : Prop :=
  State.reset.localId = 0x63 ∧ State.reset.crcAcc = 0x0000 ∧ State.reset.syncState = .idle ∧ State.reset.cur = 0 ∧
  State.reset.buf = [] ∧ State.reset.short = false ∧ State.reset.cmdBusy = false ∧
  ∀ w p rest, ∃ t, step (startedWith (.transfer w p :: rest)) = .next t ∧ t.inputs = rest

/-- 70 R231: a reset in READ abandons the read; whenever the transport answers it later (here: once the block is at
rest or in READ again), the answer is discarded, its bytes never enter BUF. That an answer names its read is the
model's choice (log entry 3). -/
def Obligations.AnswerToAbandonedReadIsDiscarded : Prop :=
  (∀ s rest, BlockInv s → s.syncState = .read → s.inputs = .reset :: rest →
    ∃ t, step s = .next t ∧ t.abandoned = s.abandoned ++ [s.reads] ∧ t.out = s.out) ∧
  (∀ s n a rest, BlockInv s → n ∈ s.abandoned → ownStepReady s = false → Answer.size a ≤ s.cfg.readMax →
    s.inputs = .answer n a :: rest →
    step s = .next { s with inputs := rest, abandoned := s.abandoned.erase n })

/-- 10 R26: what a step may do to BUF: nothing, append a non-empty chunk in READ, remove a prefix on a frame match in
SCAN, or empty it by reset. The prefix ends where the frame does, its data offset (8 in a specified configuration), its
length byte and 2 checksum bytes behind CUR. -/
def Obligations.BufferChangesInTwoWays : Prop :=
  ∀ s t, step s = .next t → takesReset s = false → t.buf = s.buf ∨
    (s.syncState = .read ∧ ∃ c, c ≠ [] ∧ t.buf = s.buf ++ c ∧ t.short = false) ∨
    (s.syncState = .scan ∧ ∃ f n, decodeAt s.cfg s.buf s.cur = .ok f ∧ n = s.cur + f.len.toNat + (s.cfg.offsets.data + 2) ∧
      t.buf = s.buf.drop n ∧ .response ⟨.ok, .frame f⟩ ∈ t.out)

/-- 10 R21, R22: LOCAL_ID is written by SET_ID and reset only, CRC_ACC by CRC_INIT, CRC_UPDATE and reset only. -/
def Obligations.RegistersHaveTheirWritersOnly : Prop :=
  ∀ s t, step s = .next t → takesReset s = false →
    (t.localId ≠ s.localId → ∃ b, acceptedInstr s = some (.setId b)) ∧
    (t.crcAcc ≠ s.crcAcc → acceptedInstr s = some .crcInit ∨ ∃ b, acceptedInstr s = some (.crcUpdate b))

/-- 10 R32: the parameters are fixed from construction: no step changes them, whatever is next at the ports. -/
def Obligations.ConfigurationIsFixed : Prop :=
  ∀ s n t, runSteps n s = .next t → t.cfg = s.cfg

/-- 30 R60: every transfer gets exactly one response: what has been answered and what is in flight together grow by
one with each accepted transfer and by nothing else; the output record only grows. -/
def Obligations.OneResponsePerTransfer : Prop :=
  ∀ s t, BlockInv s → step s = .next t → takesReset s = false →
    responseCount t + t.cmdBusy.toNat = responseCount s + s.cmdBusy.toNat + (acceptsTransfer s).toNat ∧
    ∃ l, t.out = s.out ++ l

/-- 10 R25, R26, R28, R31 and the port record: the invariant holds at reset. -/
def Obligations.InvariantHoldsAtReset : Prop := BlockInv State.reset

/-- Every step keeps the invariant, from every state that has it. -/
def Obligations.InvariantKeptByEveryStep : Prop :=
  ∀ s t, BlockInv s → step s = .next t → BlockInv t

/-- 10 R31: its invariants hold in every reachable state, for every configuration and every environment. In (e) the
command in flight can only be NEXT_FRAME, which the model deduces from 20 R46 (log entry 10). -/
def Obligations.SynchronizerInvariantsHold : Prop :=
  ∀ cfg inputs n t, cfg.Specified →
    runSteps n { startedWith inputs with cfg := cfg } = .next t → SyncInv t

/-- 60 R200, R214: an error is no model fault: under the invariant the machine goes on whenever the environment keeps
its duties, and stops by a refusal, never by a fault, when it breaks one. -/
def Obligations.StopsOnlyOnABrokenDuty : Prop :=
  ∀ s, BlockInv s → (DutiesKept s → ∃ t, step s = .next t ∧ BlockInv t) ∧ (¬ DutiesKept s → ∃ r, step s = .refused r)

/-- 43 R150, R164: a transport that answers for ever (log entry 20). Each answer of the source is as an answer to the
outstanding read, and a silent source is the first hang. The second: while every read gets a chunk and no frame
validates, NEXT_FRAME is still in flight after any number of steps, with no response, though any number of reads has
been answered and BUF has grown with each; with a finite BUF_CAP it ends in BufferOverflow instead. -/
def Obligations.TransportMayAnswerForEver : Prop :=
  ∀ s src rest, BlockInv s → s.syncState = .read → s.inputs = .stream src :: rest →
    (∀ a src', AnswerSource.next s.cfg.readMax s.reads src = some (a, src') →
      step s = step { s with inputs := .answer s.reads a :: .stream src' :: rest }) ∧
    (AnswerSource.next s.cfg.readMax s.reads src = none → step s = .next s) ∧
    (EndlessGarbage s src → s.cfg.bufCap = none →
      (∀ k, ∃ t, runSteps k s = .next t ∧ t.cmdBusy = true ∧ responses t = responses s) ∧
      ∀ n, ∃ k t, runSteps k s = .next t ∧ t.syncState = .read ∧ t.reads = s.reads + n ∧
        s.buf.length + n ≤ t.buf.length) ∧
    (∀ cap, EndlessGarbage s src → s.cfg.bufCap = some cap →
      ∃ k t, runSteps k s = .next t ∧ t.syncState = .ovf ∧
        responses t = responses s ++ [⟨.bufferOverflow, .noValue⟩])
end

