-- ==== Sys2Proof/Laws/Crc.lean ====
section
/-! SUPPORT. Lemmas of the CRC function (spec/41_crc.md R101 to R104): the fold over an append, the shift of a value
whose low bits are clear, and that a shift, a byte step and a fold lose no information. -/

namespace Sys2Proof.Machine

@[simp] theorem crcFold_nil (alg : CrcAlg) (c : U16) : crcFold alg c [] = c := rfl

@[simp] theorem crcFold_cons (alg : CrcAlg) (c : U16) (b : Byte) (s : List Byte) :
    crcFold alg c (b :: s) = crcFold alg (crcStep alg c b) s := rfl

theorem crcFold_append (alg : CrcAlg) (c : U16) (s t : List Byte) :
    crcFold alg c (s ++ t) = crcFold alg (crcFold alg c s) t := by
  induction s generalizing c with
  | nil => rfl
  | cons b s ih => exact ih _

theorem crcFold_eq_foldl (alg : CrcAlg) (c : U16) (s : List Byte) : crcFold alg c s = s.foldl (crcStep alg) c := by
  induction s generalizing c with
  | nil => rfl
  | cons b s ih => exact ih _

/-- A shift of a value whose lowest bit is clear is a plain shift (41 R101). -/
theorem crcShift_of_clear (alg : CrcAlg) {c : U16} (h : c.getLsbD 0 = false) : crcShift alg c = c >>> 1 := by
  simp only [crcShift, h, Bool.false_eq_true, if_false]

/-- `n` shifts of a value whose `n` lowest bits are clear. -/
theorem crcShifts_of_clear (alg : CrcAlg) (n : Nat) (c : U16) (h : ∀ i, i < n → c.getLsbD i = false) :
    crcShifts alg n c = c >>> n := by
  induction n generalizing c with
  | zero => simp [crcShifts]
  | succ n ih =>
    rw [crcShifts, crcShift_of_clear alg (h 0 (Nat.succ_pos n)), ih]
    · rw [← BitVec.shiftRight_add, Nat.add_comm]
    · intro i hi
      rw [BitVec.getLsbD_ushiftRight, Nat.add_comm]
      exact h (i + 1) (by omega)

/-- Feeding an accumulator its own low byte leaves its high byte, one place down: why a checksum appended low byte
first clears the accumulator (41 R103 (c)). -/
theorem crcStep_low (alg : CrcAlg) (c : U16) : crcStep alg c (c.extractLsb' 0 8) = c >>> 8 := by
  have hx : ∀ i, (c ^^^ (c.extractLsb' 0 8).setWidth 16).getLsbD i = (decide (8 ≤ i) && c.getLsbD i) := by
    intro i
    by_cases h8 : i < 8
    · have h16 : i < 16 := by omega
      have hn : ¬ 8 ≤ i := by omega
      simp [h8, h16, hn]
    · have hn : 8 ≤ i := by omega
      simp [hn]
  rw [crcStep, crcShifts_of_clear]
  · apply BitVec.eq_of_getLsbD_eq
    intro i _
    simp [BitVec.getLsbD_ushiftRight, hx]
  · intro i hi
    have hn : ¬ 8 ≤ i := by omega
    simp [hx, hn]

/-- The two checksum bytes clear the accumulator that made them, whatever the polynomial and the initial value. -/
theorem crcFold_le16 (alg : CrcAlg) (c : U16) : crcFold alg c (le16 c) = 0 := by
  have h : c.extractLsb' 8 8 = (c >>> 8).extractLsb' 0 8 := by
    apply BitVec.eq_of_getLsbD_eq
    intro i hi
    simp [BitVec.getLsbD_ushiftRight, hi]
  rw [le16, crcFold_cons, crcFold_cons, crcFold_nil, crcStep_low, h, crcStep_low, ← BitVec.shiftRight_add]
  apply BitVec.eq_of_getLsbD_eq
  intro i _
  rw [BitVec.getLsbD_ushiftRight, BitVec.getLsbD_of_ge c (8 + 8 + i) (by omega)]
  simp

/-- With a reflected polynomial whose top bit is set (the polynomial's constant term), a shift loses nothing: the bit
it drops is the top bit of the result. -/
theorem crcShift_injective {alg : CrcAlg} (h : alg.polyReflected.getLsbD 15 = true) {a b : U16}
    (hab : crcShift alg a = crcShift alg b) : a = b := by
  have top : ∀ c : U16, (crcShift alg c).getLsbD 15 = c.getLsbD 0 := by
    intro c
    have h16 : c.getLsbD 16 = false := BitVec.getLsbD_of_ge c 16 (by omega)
    by_cases hc : c.getLsbD 0 = true
    · rw [crcShift, if_pos hc, BitVec.getLsbD_xor, BitVec.getLsbD_ushiftRight, h16, h, hc]; rfl
    · rw [Bool.not_eq_true] at hc
      rw [crcShift_of_clear alg hc, BitVec.getLsbD_ushiftRight, h16, hc]
  have h0 : a.getLsbD 0 = b.getLsbD 0 := by rw [← top a, ← top b, hab]
  have hs : a >>> 1 = b >>> 1 := by
    unfold crcShift at hab
    rw [h0] at hab
    split at hab
    · have := congrArg (· ^^^ alg.polyReflected) hab
      simpa [BitVec.xor_assoc] using this
    · exact hab
  apply BitVec.eq_of_getLsbD_eq
  intro i _
  cases i with
  | zero => exact h0
  | succ i =>
    have := congrArg (fun v => v.getLsbD i) hs
    simpa [BitVec.getLsbD_ushiftRight, Nat.add_comm] using this

theorem crcShifts_injective {alg : CrcAlg} (h : alg.polyReflected.getLsbD 15 = true) (n : Nat) {a b : U16}
    (hab : crcShifts alg n a = crcShifts alg n b) : a = b := by
  induction n generalizing a b with
  | zero => exact hab
  | succ n ih => exact crcShift_injective h (ih hab)

/-- A byte step is injective in the accumulator. -/
theorem crcStep_injective_left {alg : CrcAlg} (h : alg.polyReflected.getLsbD 15 = true) {a c : U16} {b : Byte}
    (hab : crcStep alg a b = crcStep alg c b) : a = c := by
  have := congrArg (· ^^^ b.setWidth 16) (crcShifts_injective h 8 hab)
  simpa [BitVec.xor_assoc] using this

/-- A byte step is injective in the byte. -/
theorem crcStep_injective_right {alg : CrcAlg} (h : alg.polyReflected.getLsbD 15 = true) {c : U16} {a b : Byte}
    (hab : crcStep alg c a = crcStep alg c b) : a = b := by
  have hx := congrArg (c ^^^ ·) (crcShifts_injective h 8 hab)
  simp only [← BitVec.xor_assoc, BitVec.xor_self, BitVec.zero_xor] at hx
  have := congrArg (fun v => v.setWidth 8) hx
  simpa using this

/-- A fold is injective in the accumulator it starts from. -/
theorem crcFold_injective {alg : CrcAlg} (h : alg.polyReflected.getLsbD 15 = true) (s : List Byte) {a c : U16}
    (hac : crcFold alg a s = crcFold alg c s) : a = c := by
  induction s generalizing a c with
  | nil => exact hac
  | cons b s ih => exact crcStep_injective_left h (ih hac)

end Sys2Proof.Machine
end

