-- ==== Sys2Proof/Laws/Codec.lean ====
section
/-! SUPPORT. Lemmas of the codec (spec/42_codec.md): the bytes of lists put together, when Decode accepts, and the
shape of a built frame. -/

namespace Sys2Proof.Machine

@[simp] theorem byteOf_cons_zero (b : Byte) (w : List Byte) : byteOf (b :: w) 0 = b := rfl

@[simp] theorem byteOf_cons_succ (b : Byte) (w : List Byte) (i : Nat) : byteOf (b :: w) (i + 1) = byteOf w i := rfl

theorem byteOf_append_left {w : List Byte} (x : List Byte) {i : Nat} (h : i < w.length) :
    byteOf (w ++ x) i = byteOf w i := by
  simp [byteOf, List.getElem?_append_left h]

theorem byteOf_append_right (w x : List Byte) (i : Nat) : byteOf (w ++ x) (w.length + i) = byteOf x i := by
  simp [byteOf, List.getElem?_append_right]

/-- When Decode answers a frame (42 R135): every test passed, and the frame is the window's record. -/
theorem decodeFrame_ok_iff {cfg : Config} {w : List Byte} {f : Frame} :
    decodeFrame cfg w = .ok f ↔
      cfg.minMessageSize ≤ w.length ∧ lengthByte cfg w ≠ 0 ∧ frameSize cfg.offsets (lengthByte cfg w) ≤ w.length ∧
        crc16 cfg.crcAlg (w.take (frameSize cfg.offsets (lengthByte cfg w))) = 0 ∧ f = frameOf cfg w := by
  unfold decodeFrame
  split
  · simp; omega
  · split
    · rename_i h; simp [h]
    · split
      · simp; omega
      · split
        · rename_i h
          constructor
          · intro hf; cases hf
          · intro hf; exact absurd hf.2.2.2.1 h
        · rename_i h1 h2 h3 h4
          rw [ne_eq, not_not] at h4
          simp only [Except.ok.injEq]
          constructor
          · rintro rfl; exact ⟨by omega, h2, by omega, h4, rfl⟩
          · rintro ⟨_, _, _, _, rfl⟩; rfl

/-- A window shorter than MIN_MESSAGE_SIZE is FrameTooShort (42 R136, case 1). -/
theorem decodeFrame_short {cfg : Config} {w : List Byte} (h : w.length < cfg.minMessageSize) :
    decodeFrame cfg w = .error .frameTooShort := by
  rw [decodeFrame, if_pos h]

/-- Decode answers an error when it answers no frame. -/
theorem decodeFrame_error_of {cfg : Config} {w : List Byte} (h : ∀ f, decodeFrame cfg w ≠ .ok f) :
    ∃ e, decodeFrame cfg w = .error e := by
  cases hd : decodeFrame cfg w with
  | ok f => exact absurd hd (h f)
  | error e => exact ⟨e, rfl⟩

@[simp] theorem frameHeader_length (o : HeaderOffsets) (dest src len code : Byte) :
    (frameHeader o dest src len code).length = o.data := by
  simp [frameHeader]

/-- The header at the offsets of 30 R61. -/
@[simp] theorem frameHeader_frame (dest src len code : Byte) :
    frameHeader HeaderOffsets.frame dest src len code = [dest, 0x00, src, 0x00, len, 0x00, 0x00, code] := rfl

/-- `L + 10` at the offsets of 30 R61. -/
@[simp] theorem frameSize_frame (len : Byte) : frameSize HeaderOffsets.frame len = len.toNat + 10 := rfl

/-- The length byte in a specified configuration (30 R61). -/
theorem lengthByte_specified {cfg : Config} (hc : cfg.Specified) (w : List Byte) : lengthByte cfg w = byteOf w 4 := by
  rw [lengthByte, hc.2.2.2.2.2.1]; rfl

/-- The frame's size in a specified configuration (30 R61). -/
theorem frameSize_specified {cfg : Config} (hc : cfg.Specified) (len : Byte) :
    frameSize cfg.offsets len = len.toNat + 10 := by
  rw [hc.2.2.2.2.2.1]; rfl

/-- The record in a specified configuration, with the offsets of 42 R135. -/
theorem frameOf_specified {cfg : Config} (hc : cfg.Specified) (w : List Byte) :
    frameOf cfg w =
      { dst := byteOf w 0
        src := byteOf w 2
        len := byteOf w 4
        fcode := byteOf w 7
        ftag := tagOf FunctionCodes.source (byteOf w 7)
        data := (w.drop 8).take (byteOf w 4).toNat
        checksum := u16le (byteOf w (8 + (byteOf w 4).toNat)) (byteOf w (9 + (byteOf w 4).toNat)) } := by
  rw [frameOf, lengthByte_specified hc, hc.2.2.2.2.1, hc.2.2.2.2.2.1]; rfl

/-- Decode in a specified configuration, with the numbers of 42 R135. -/
theorem decodeFrame_specified {cfg : Config} (hc : cfg.Specified) (w : List Byte) :
    decodeFrame cfg w =
      if w.length < 11 then .error .frameTooShort
      else if byteOf w 4 = 0 then .error .lengthZero
      else if w.length < (byteOf w 4).toNat + 10 then .error .frameTooShort
      else if crc16 CrcAlg.arc (w.take ((byteOf w 4).toNat + 10)) ≠ 0 then .error .checksumInvalid
      else .ok (frameOf cfg w) := by
  rw [decodeFrame, lengthByte_specified hc, frameSize_specified hc, hc.1, hc.2.2.1]

/-- When Decode answers a frame in a specified configuration, with the numbers of 42 R135. -/
theorem decodeFrame_ok_iff_specified {cfg : Config} (hc : cfg.Specified) {w : List Byte} {f : Frame} :
    decodeFrame cfg w = .ok f ↔
      11 ≤ w.length ∧ byteOf w 4 ≠ 0 ∧ (byteOf w 4).toNat + 10 ≤ w.length ∧
        crc16 cfg.crcAlg (w.take ((byteOf w 4).toNat + 10)) = 0 ∧ f = frameOf cfg w := by
  rw [decodeFrame_ok_iff, lengthByte_specified hc, frameSize_specified hc, hc.1]

@[simp] theorem le16_length (v : U16) : (le16 v).length = 2 := rfl

@[simp] theorem buildFrame_length (cfg : Config) (dest src code : Byte) (data : List Byte) :
    (buildFrame cfg dest src code data).length = data.length + (cfg.offsets.data + 2) := by
  simp [buildFrame]; omega

/-- A built frame in a specified configuration: its eight header bytes, then the data and the checksum (42 R130). -/
theorem buildFrame_specified {cfg : Config} (hc : cfg.Specified) (dest src code : Byte) (data : List Byte) :
    buildFrame cfg dest src code data =
      dest :: 0x00 :: src :: 0x00 :: BitVec.ofNat 8 data.length :: 0x00 :: 0x00 :: code ::
        (data ++ le16 (crc16 cfg.crcAlg
          ([dest, 0x00, src, 0x00, BitVec.ofNat 8 data.length, 0x00, 0x00, code] ++ data))) := by
  rw [buildFrame, hc.2.2.2.2.2.1, frameHeader_frame]; simp

/-- The residue of a built frame is zero (41 R103 (c)). -/
theorem crc16_buildFrame (cfg : Config) (dest src code : Byte) (data : List Byte) :
    crc16 cfg.crcAlg (buildFrame cfg dest src code data) = 0 := by
  rw [buildFrame, crc16, crcFold_append]
  exact crcFold_le16 cfg.crcAlg _

end Sys2Proof.Machine
end

