-- ==== Sys2Proof/Laws/Decode.lean ====
section
/-! SUPPORT. Lemmas of the command decoder and encoder (spec/30_encoding.md R68 to R75): what each row of the table
selects, in terms of the word's fields, and the fields of the words the encoder makes. -/

namespace Sys2Proof

/-- A word is its opcode and its twelve lower bits (30 R68). -/
theorem word_ext {w v : U16} (h : opcOf w = opcOf v) (h' : w.extractLsb' 0 12 = v.extractLsb' 0 12) : w = v := by
  apply BitVec.eq_of_getLsbD_eq
  intro i hi
  by_cases h12 : i < 12
  · have := congrArg (fun x => x.getLsbD i) h'
    simpa [h12] using this
  · have := congrArg (fun x => x.getLsbD (i - 12)) h
    have h4 : i - 12 < 4 := by omega
    have hadd : 12 + (i - 12) = i := by omega
    simpa [opcOf, h4, hadd] using this

/-- A mask of the whole word selects one word. -/
theorem and_mask_word (w : U16) : w &&& 0xFFFF = w := by
  have h : (0xFFFF : U16) = BitVec.allOnes 16 := by decide
  rw [h, BitVec.and_allOnes]

/-- Format B's mask selects by the high byte: OPC and RSV (30 R70, R73). -/
theorem and_mask_high_byte (w v : U16) (hv : v.extractLsb' 0 8 = 0) :
    w &&& 0xFF00 = v ↔ w.extractLsb' 8 8 = v.extractLsb' 8 8 := by
  have hm : ∀ i, i < 16 → (0xFF00 : U16).getLsbD i = decide (8 ≤ i) := by decide
  have hv0 : ∀ i, i < 8 → v.getLsbD i = false := by
    intro i hi
    have := congrArg (fun x => x.getLsbD i) hv
    simpa [hi] using this
  constructor
  · rintro rfl
    apply BitVec.eq_of_getLsbD_eq
    intro i hi
    simp only [BitVec.getLsbD_extractLsb', BitVec.getLsbD_and, hm (8 + i) (by omega), hi, Nat.le_add_right,
      decide_true, Bool.and_true, Bool.true_and]
  · intro h
    apply BitVec.eq_of_getLsbD_eq
    intro i hi
    rw [BitVec.getLsbD_and, hm i hi]
    by_cases h8 : i < 8
    · have hn : ¬ 8 ≤ i := by omega
      simp [hn, hv0 i h8]
    · have := congrArg (fun x => x.getLsbD (i - 8)) h
      have hlt : i - 8 < 8 := by omega
      have hadd : 8 + (i - 8) = i := by omega
      have hge : 8 ≤ i := by omega
      simpa [hlt, hadd, hge] using this

/-- Format E's mask selects by the five high bits: OPC and RSV (30 R71, R73). -/
theorem and_mask_high_five (w v : U16) (hv : v.extractLsb' 0 11 = 0) :
    w &&& 0xF800 = v ↔ w.extractLsb' 11 5 = v.extractLsb' 11 5 := by
  have hm : ∀ i, i < 16 → (0xF800 : U16).getLsbD i = decide (11 ≤ i) := by decide
  have hv0 : ∀ i, i < 11 → v.getLsbD i = false := by
    intro i hi
    have := congrArg (fun x => x.getLsbD i) hv
    simpa [hi] using this
  constructor
  · rintro rfl
    apply BitVec.eq_of_getLsbD_eq
    intro i hi
    simp only [BitVec.getLsbD_extractLsb', BitVec.getLsbD_and, hm (11 + i) (by omega), hi, Nat.le_add_right,
      decide_true, Bool.and_true, Bool.true_and]
  · intro h
    apply BitVec.eq_of_getLsbD_eq
    intro i hi
    rw [BitVec.getLsbD_and, hm i hi]
    by_cases h8 : i < 11
    · have hn : ¬ 11 ≤ i := by omega
      simp [hn, hv0 i h8]
    · have := congrArg (fun x => x.getLsbD (i - 11)) h
      have hlt : i - 11 < 5 := by omega
      have hadd : 11 + (i - 11) = i := by omega
      have hge : 11 ≤ i := by omega
      simpa [hlt, hadd, hge] using this

/-- The decoder as one chain of tests, row by row (30 R75). -/
theorem decodeCmd_eq (w : U16) (p : List Byte) :
    decodeCmd w p =
      if w = 0x1000 then (if p = [] then .ok .crcInit else .error .payloadNotAllowed)
      else if w.extractLsb' 8 8 = 0x20 then
        (if p = [] then .ok (.crcUpdate (lowByteOf w)) else .error .payloadNotAllowed)
      else if w = 0x3000 then (if p = [] then .ok .crcRead else .error .payloadNotAllowed)
      else if w.extractLsb' 8 8 = 0x40 then
        (if p = [] then .ok (.setId (lowByteOf w)) else .error .payloadNotAllowed)
      else if w = 0x5000 then (if p = [] then .ok .getId else .error .payloadNotAllowed)
      else if w.extractLsb' 11 5 = 0x0C then .ok (.encode (FunSel.ofFsel (fselOf w)) (lowByteOf w) p)
      else if w = 0x7000 then .ok (.decode p)
      else if w = 0x8000 then (if p = [] then .ok .nextFrame else .error .payloadNotAllowed)
      else .error (unselected w) := by
  have h2 : (w &&& 0xFF00 = 0x2000) = (w.extractLsb' 8 8 = 0x20) := by
    rw [and_mask_high_byte w 0x2000 (by decide)]; rfl
  have h4 : (w &&& 0xFF00 = 0x4000) = (w.extractLsb' 8 8 = 0x40) := by
    rw [and_mask_high_byte w 0x4000 (by decide)]; rfl
  have h6 : (w &&& 0xF800 = 0x6000) = (w.extractLsb' 11 5 = 0x0C) := by
    rw [and_mask_high_five w 0x6000 (by decide)]; rfl
  simp only [decodeCmd, opcodeTable, decodeRows, Row.selects, and_mask_word, beq_iff_eq, h2, h4, h6]
  cases p <;> simp [Mnemonic.instr]

/-- A word is a row of formats N and P when OPC is the row's and RSV is zero (30 R69, R72). -/
theorem word_eq_iff (w v : U16) : w = v ↔ opcOf w = opcOf v ∧ w.extractLsb' 0 12 = v.extractLsb' 0 12 :=
  ⟨fun h => by rw [h]; exact ⟨rfl, rfl⟩, fun h => word_ext h.1 h.2⟩

/-- The high byte is OPC and format B's RSV (30 R70). -/
theorem high_byte_eq_iff (w : U16) (v : Byte) :
    w.extractLsb' 8 8 = v ↔ opcOf w = v.extractLsb' 4 4 ∧ w.extractLsb' 8 4 = v.extractLsb' 0 4 := by
  constructor
  · rintro rfl
    constructor
    · apply BitVec.eq_of_getLsbD_eq
      intro i hi
      have h8 : 4 + i < 8 := by omega
      simp only [opcOf, BitVec.getLsbD_extractLsb', hi, h8, decide_true, Bool.true_and, ← Nat.add_assoc]
    · apply BitVec.eq_of_getLsbD_eq
      intro i hi
      have h8 : i < 8 := by omega
      simp only [BitVec.getLsbD_extractLsb', hi, h8, Nat.zero_add, decide_true, Bool.true_and]
  · rintro ⟨h1, h2⟩
    apply BitVec.eq_of_getLsbD_eq
    intro i hi
    by_cases h4 : i < 4
    · have := congrArg (fun x => x.getLsbD i) h2
      simpa [h4, hi] using this
    · have := congrArg (fun x => x.getLsbD (i - 4)) h1
      have e : 4 + (i - 4) = i := by omega
      have e2 : 12 + (i - 4) = 8 + i := by omega
      have l : i - 4 < 4 := by omega
      simpa [opcOf, e, e2, l, hi] using this

/-- The five high bits are OPC and format E's RSV (30 R71). -/
theorem high_five_eq_iff (w : U16) : w.extractLsb' 11 5 = 0x0C ↔ opcOf w = 6 ∧ w.getLsbD 11 = false := by
  have bits : ∀ i, i < 4 → (0x0C : BitVec 5).getLsbD (i + 1) = (6 : BitVec 4).getLsbD i := by decide
  constructor
  · intro h
    have hk : ∀ i, i < 5 → w.getLsbD (11 + i) = (0x0C : BitVec 5).getLsbD i := by
      intro i hi
      rw [← h]
      simp [hi]
    refine ⟨?_, hk 0 (by omega)⟩
    apply BitVec.eq_of_getLsbD_eq
    intro i hi
    have := hk (i + 1) (by omega)
    rw [show 11 + (i + 1) = 12 + i by omega, bits i hi] at this
    simpa only [opcOf, BitVec.getLsbD_extractLsb', hi, decide_true, Bool.true_and] using this
  · rintro ⟨h1, h2⟩
    apply BitVec.eq_of_getLsbD_eq
    intro i hi
    simp only [BitVec.getLsbD_extractLsb', hi, decide_true, Bool.true_and]
    cases i with
    | zero => exact h2
    | succ i =>
      have l : i < 4 := by omega
      have := congrArg (fun x => x.getLsbD i) h1
      simp only [opcOf, BitVec.getLsbD_extractLsb', l, decide_true, Bool.true_and] at this
      rw [show 11 + (i + 1) = 12 + i by omega, this, bits i l]

theorem wordB_high (pattern : U16) (b : Byte) : (wordB pattern b).extractLsb' 8 8 = pattern.extractLsb' 8 8 := by
  apply BitVec.eq_of_getLsbD_eq
  intro i hi
  simp [wordB, hi]

theorem wordB_low (pattern : U16) (b : Byte) (h : pattern.extractLsb' 0 8 = 0) : lowByteOf (wordB pattern b) = b := by
  apply BitVec.eq_of_getLsbD_eq
  intro i hi
  have h0 : pattern.getLsbD i = false := by
    have := congrArg (fun x => x.getLsbD i) h
    simpa [hi] using this
  have h16 : i < 16 := by omega
  simp only [lowByteOf, wordB, BitVec.getLsbD_extractLsb', BitVec.getLsbD_or, BitVec.getLsbD_setWidth, Nat.zero_add,
    hi, h0, h16, decide_true, Bool.true_and, Bool.false_or]

theorem wordE_high (pattern : U16) (f : BitVec 3) (b : Byte) :
    (wordE pattern f b).extractLsb' 11 5 = pattern.extractLsb' 11 5 := by
  apply BitVec.eq_of_getLsbD_eq
  intro i hi
  have h1 : 8 ≤ 11 + i := by omega
  have h2 : 3 ≤ 11 + i - 8 := by omega
  have h3 : f.getLsbD (11 + i - 8) = false := BitVec.getLsbD_of_ge _ _ h2
  have h4 : b.getLsbD (11 + i) = false := BitVec.getLsbD_of_ge _ _ (by omega)
  simp [wordE, hi, h3, h4]

theorem wordE_fsel (pattern : U16) (f : BitVec 3) (b : Byte) (h : pattern.extractLsb' 0 11 = 0) :
    fselOf (wordE pattern f b) = f := by
  apply BitVec.eq_of_getLsbD_eq
  intro i hi
  have h0 : pattern.getLsbD (8 + i) = false := by
    have := congrArg (fun x => x.getLsbD (8 + i)) h
    have h11 : 8 + i < 11 := by omega
    simpa [h11] using this
  have h4 : b.getLsbD (8 + i) = false := BitVec.getLsbD_of_ge _ _ (by omega)
  have h16 : 8 + i < 16 := by omega
  have hlt : ¬ 8 + i < 8 := by omega
  have hsub : 8 + i - 8 = i := by omega
  have hi16 : i < 16 := by omega
  simp only [fselOf, wordE, BitVec.getLsbD_extractLsb', BitVec.getLsbD_or, BitVec.getLsbD_setWidth,
    BitVec.getLsbD_shiftLeft, hi, h0, h4, h16, hlt, hsub, hi16, decide_true, decide_false, Bool.true_and, Bool.and_false,
    Bool.false_or, Bool.or_false, Bool.not_false]

theorem wordE_low (pattern : U16) (f : BitVec 3) (b : Byte) (h : pattern.extractLsb' 0 11 = 0) :
    lowByteOf (wordE pattern f b) = b := by
  apply BitVec.eq_of_getLsbD_eq
  intro i hi
  have h0 : pattern.getLsbD i = false := by
    have := congrArg (fun x => x.getLsbD i) h
    have h11 : i < 11 := by omega
    simpa [h11] using this
  have h16 : i < 16 := by omega
  simp only [lowByteOf, wordE, BitVec.getLsbD_extractLsb', BitVec.getLsbD_or, BitVec.getLsbD_setWidth,
    BitVec.getLsbD_shiftLeft, Nat.zero_add, hi, h0, h16, decide_true, Bool.true_and, Bool.false_or, Bool.not_true,
    Bool.and_false, Bool.false_and]

/-- Selector numbers and names (30 R65): a well-formed name comes back from its number. -/
theorem FunSel.ofFsel_fsel {sel : FunSel} (h : sel.wf = true) : FunSel.ofFsel sel.fsel = sel := by
  cases sel with
  | unrecognized n =>
    have hn : 4 ≤ n.toNat := by simpa [FunSel.wf] using h
    have hall : ∀ n : BitVec 3, 4 ≤ n.toNat → FunSel.ofFsel n = .unrecognized n := by decide
    exact hall n hn
  | _ => decide

theorem FunSel.fsel_ofFsel (n : BitVec 3) : (FunSel.ofFsel n).fsel = n := by
  revert n; decide

theorem FunSel.wf_ofFsel (n : BitVec 3) : (FunSel.ofFsel n).wf = true := by
  revert n; decide

end Sys2Proof
end

