-- ==== Sys2Proof/Laws/State.lean ====
section
/-! SUPPORT. One lemma for each field of State under each shared update, true by rfl, so that no later proof unfolds a
record update. -/

namespace Sys2Proof.Machine

/-! ### respond -/

@[simp] theorem respond_cfg (st : Status) (v : Value) (s : State) : (respond st v s).cfg = s.cfg := rfl
@[simp] theorem respond_localId (st : Status) (v : Value) (s : State) : (respond st v s).localId = s.localId := rfl
@[simp] theorem respond_crcAcc (st : Status) (v : Value) (s : State) : (respond st v s).crcAcc = s.crcAcc := rfl
@[simp] theorem respond_syncState (st : Status) (v : Value) (s : State) : (respond st v s).syncState = s.syncState := rfl
@[simp] theorem respond_cur (st : Status) (v : Value) (s : State) : (respond st v s).cur = s.cur := rfl
@[simp] theorem respond_buf (st : Status) (v : Value) (s : State) : (respond st v s).buf = s.buf := rfl
@[simp] theorem respond_short (st : Status) (v : Value) (s : State) : (respond st v s).short = s.short := rfl
@[simp] theorem respond_cmdBusy (st : Status) (v : Value) (s : State) : (respond st v s).cmdBusy = false := rfl
@[simp] theorem respond_inputs (st : Status) (v : Value) (s : State) : (respond st v s).inputs = s.inputs := rfl
@[simp] theorem respond_out (st : Status) (v : Value) (s : State) : (respond st v s).out = s.out ++ [.response ⟨st, v⟩] := rfl
@[simp] theorem respond_reads (st : Status) (v : Value) (s : State) : (respond st v s).reads = s.reads := rfl
@[simp] theorem respond_abandoned (st : Status) (v : Value) (s : State) : (respond st v s).abandoned = s.abandoned := rfl

/-! ### raise -/

@[simp] theorem raise_cfg (e : Status) (s : State) : (raise e s).cfg = s.cfg := rfl
@[simp] theorem raise_localId (e : Status) (s : State) : (raise e s).localId = s.localId := rfl
@[simp] theorem raise_crcAcc (e : Status) (s : State) : (raise e s).crcAcc = s.crcAcc := rfl
@[simp] theorem raise_syncState (e : Status) (s : State) : (raise e s).syncState = s.syncState := rfl
@[simp] theorem raise_cur (e : Status) (s : State) : (raise e s).cur = s.cur := rfl
@[simp] theorem raise_buf (e : Status) (s : State) : (raise e s).buf = s.buf := rfl
@[simp] theorem raise_short (e : Status) (s : State) : (raise e s).short = s.short := rfl
@[simp] theorem raise_cmdBusy (e : Status) (s : State) : (raise e s).cmdBusy = false := rfl
@[simp] theorem raise_inputs (e : Status) (s : State) : (raise e s).inputs = s.inputs := rfl
@[simp] theorem raise_out (e : Status) (s : State) : (raise e s).out = s.out ++ [.response ⟨e, .noValue⟩] := rfl
@[simp] theorem raise_reads (e : Status) (s : State) : (raise e s).reads = s.reads := rfl
@[simp] theorem raise_abandoned (e : Status) (s : State) : (raise e s).abandoned = s.abandoned := rfl

/-! ### endStream -/

@[simp] theorem endStream_cfg (y : SyncState) (e : Status) (s : State) : (endStream y e s).cfg = s.cfg := rfl
@[simp] theorem endStream_localId (y : SyncState) (e : Status) (s : State) : (endStream y e s).localId = s.localId := rfl
@[simp] theorem endStream_crcAcc (y : SyncState) (e : Status) (s : State) : (endStream y e s).crcAcc = s.crcAcc := rfl
@[simp] theorem endStream_syncState (y : SyncState) (e : Status) (s : State) : (endStream y e s).syncState = y := rfl
@[simp] theorem endStream_cur (y : SyncState) (e : Status) (s : State) : (endStream y e s).cur = s.cur := rfl
@[simp] theorem endStream_buf (y : SyncState) (e : Status) (s : State) : (endStream y e s).buf = s.buf := rfl
@[simp] theorem endStream_short (y : SyncState) (e : Status) (s : State) : (endStream y e s).short = s.short := rfl
@[simp] theorem endStream_cmdBusy (y : SyncState) (e : Status) (s : State) : (endStream y e s).cmdBusy = false := rfl
@[simp] theorem endStream_inputs (y : SyncState) (e : Status) (s : State) : (endStream y e s).inputs = s.inputs := rfl
@[simp] theorem endStream_out (y : SyncState) (e : Status) (s : State) : (endStream y e s).out = s.out ++ [.response ⟨e, .noValue⟩] := rfl
@[simp] theorem endStream_reads (y : SyncState) (e : Status) (s : State) : (endStream y e s).reads = s.reads := rfl
@[simp] theorem endStream_abandoned (y : SyncState) (e : Status) (s : State) : (endStream y e s).abandoned = s.abandoned := rfl

/-! ### startRead -/

@[simp] theorem startRead_cfg (s : State) : (startRead s).cfg = s.cfg := rfl
@[simp] theorem startRead_localId (s : State) : (startRead s).localId = s.localId := rfl
@[simp] theorem startRead_crcAcc (s : State) : (startRead s).crcAcc = s.crcAcc := rfl
@[simp] theorem startRead_syncState (s : State) : (startRead s).syncState = .read := rfl
@[simp] theorem startRead_cur (s : State) : (startRead s).cur = s.cur := rfl
@[simp] theorem startRead_buf (s : State) : (startRead s).buf = s.buf := rfl
@[simp] theorem startRead_short (s : State) : (startRead s).short = s.short := rfl
@[simp] theorem startRead_cmdBusy (s : State) : (startRead s).cmdBusy = s.cmdBusy := rfl
@[simp] theorem startRead_inputs (s : State) : (startRead s).inputs = s.inputs := rfl
@[simp] theorem startRead_out (s : State) : (startRead s).out = s.out ++ [.transportRead (s.reads + 1) s.cfg.readMax] := rfl
@[simp] theorem startRead_reads (s : State) : (startRead s).reads = s.reads + 1 := rfl
@[simp] theorem startRead_abandoned (s : State) : (startRead s).abandoned = s.abandoned := rfl

/-! ### resetEvent -/

@[simp] theorem resetEvent_cfg (s : State) : (resetEvent s).cfg = s.cfg := rfl
@[simp] theorem resetEvent_localId (s : State) : (resetEvent s).localId = s.cfg.localIdDefault := rfl
@[simp] theorem resetEvent_crcAcc (s : State) : (resetEvent s).crcAcc = s.cfg.crcAlg.init := rfl
@[simp] theorem resetEvent_syncState (s : State) : (resetEvent s).syncState = .idle := rfl
@[simp] theorem resetEvent_cur (s : State) : (resetEvent s).cur = 0 := rfl
@[simp] theorem resetEvent_buf (s : State) : (resetEvent s).buf = [] := rfl
@[simp] theorem resetEvent_short (s : State) : (resetEvent s).short = false := rfl
@[simp] theorem resetEvent_cmdBusy (s : State) : (resetEvent s).cmdBusy = false := rfl
@[simp] theorem resetEvent_inputs (s : State) : (resetEvent s).inputs = s.inputs := rfl
@[simp] theorem resetEvent_out (s : State) : (resetEvent s).out = s.out := rfl
@[simp] theorem resetEvent_reads (s : State) : (resetEvent s).reads = s.reads := rfl
@[simp] theorem resetEvent_abandoned (s : State) : (resetEvent s).abandoned = abandonedByReset s := rfl

/-! ### setShort -/

@[simp] theorem setShort_cfg (s : State) : (setShort s).cfg = s.cfg := rfl
@[simp] theorem setShort_localId (s : State) : (setShort s).localId = s.localId := rfl
@[simp] theorem setShort_crcAcc (s : State) : (setShort s).crcAcc = s.crcAcc := rfl
@[simp] theorem setShort_syncState (s : State) : (setShort s).syncState = s.syncState := rfl
@[simp] theorem setShort_cur (s : State) : (setShort s).cur = s.cur := rfl
@[simp] theorem setShort_buf (s : State) : (setShort s).buf = s.buf := rfl
@[simp] theorem setShort_short (s : State) : (setShort s).short = true := rfl
@[simp] theorem setShort_cmdBusy (s : State) : (setShort s).cmdBusy = s.cmdBusy := rfl
@[simp] theorem setShort_inputs (s : State) : (setShort s).inputs = s.inputs := rfl
@[simp] theorem setShort_out (s : State) : (setShort s).out = s.out := rfl
@[simp] theorem setShort_reads (s : State) : (setShort s).reads = s.reads := rfl
@[simp] theorem setShort_abandoned (s : State) : (setShort s).abandoned = s.abandoned := rfl

/-! ### appendChunk -/

@[simp] theorem appendChunk_cfg (c : List Byte) (s : State) : (appendChunk c s).cfg = s.cfg := rfl
@[simp] theorem appendChunk_localId (c : List Byte) (s : State) : (appendChunk c s).localId = s.localId := rfl
@[simp] theorem appendChunk_crcAcc (c : List Byte) (s : State) : (appendChunk c s).crcAcc = s.crcAcc := rfl
@[simp] theorem appendChunk_syncState (c : List Byte) (s : State) : (appendChunk c s).syncState = s.syncState := rfl
@[simp] theorem appendChunk_cur (c : List Byte) (s : State) : (appendChunk c s).cur = s.cur := rfl
@[simp] theorem appendChunk_buf (c : List Byte) (s : State) : (appendChunk c s).buf = s.buf ++ c := rfl
@[simp] theorem appendChunk_short (c : List Byte) (s : State) : (appendChunk c s).short = false := rfl
@[simp] theorem appendChunk_cmdBusy (c : List Byte) (s : State) : (appendChunk c s).cmdBusy = s.cmdBusy := rfl
@[simp] theorem appendChunk_inputs (c : List Byte) (s : State) : (appendChunk c s).inputs = s.inputs := rfl
@[simp] theorem appendChunk_out (c : List Byte) (s : State) : (appendChunk c s).out = s.out := rfl
@[simp] theorem appendChunk_reads (c : List Byte) (s : State) : (appendChunk c s).reads = s.reads := rfl
@[simp] theorem appendChunk_abandoned (c : List Byte) (s : State) : (appendChunk c s).abandoned = s.abandoned := rfl

/-! ### scanMatch -/

@[simp] theorem scanMatch_cfg (f : Frame) (s : State) : (scanMatch f s).cfg = s.cfg := rfl
@[simp] theorem scanMatch_localId (f : Frame) (s : State) : (scanMatch f s).localId = s.localId := rfl
@[simp] theorem scanMatch_crcAcc (f : Frame) (s : State) : (scanMatch f s).crcAcc = s.crcAcc := rfl
@[simp] theorem scanMatch_syncState (f : Frame) (s : State) : (scanMatch f s).syncState = .idle := rfl
@[simp] theorem scanMatch_cur (f : Frame) (s : State) : (scanMatch f s).cur = 0 := rfl
@[simp] theorem scanMatch_buf (f : Frame) (s : State) : (scanMatch f s).buf = s.buf.drop (s.cur + frameSize s.cfg.offsets f.len) := rfl
@[simp] theorem scanMatch_short (f : Frame) (s : State) : (scanMatch f s).short = s.short := rfl
@[simp] theorem scanMatch_cmdBusy (f : Frame) (s : State) : (scanMatch f s).cmdBusy = false := rfl
@[simp] theorem scanMatch_inputs (f : Frame) (s : State) : (scanMatch f s).inputs = s.inputs := rfl
@[simp] theorem scanMatch_out (f : Frame) (s : State) : (scanMatch f s).out = s.out ++ [.response ⟨.ok, .frame f⟩] := rfl
@[simp] theorem scanMatch_reads (f : Frame) (s : State) : (scanMatch f s).reads = s.reads := rfl
@[simp] theorem scanMatch_abandoned (f : Frame) (s : State) : (scanMatch f s).abandoned = s.abandoned := rfl

end Sys2Proof.Machine
end

