-- ==== Sys2Proof/Laws/Memory.lean ====
section
/-! SUPPORT. BUF: reads after the two operations, and that each operation keeps BUF's form (spec/10_state.md R26,
spec/20_memory.md R40). -/

namespace Sys2Proof.Machine

theorem Memory.wf_iff (cap : Option Nat) (m : Memory) :
    Memory.wf cap m = true ↔ ∀ limit, cap = some limit → m.length ≤ limit := by
  cases cap <;> simp [Memory.wf, Memory.fits]

theorem Memory.fits_iff (cap : Option Nat) (m : Memory) (n : Nat) :
    Memory.fits cap m n = true ↔ ∀ limit, cap = some limit → m.length + n ≤ limit := by
  cases cap <;> simp [Memory.fits]

theorem Memory.wf_reset (cap : Option Nat) : Memory.wf cap [] = true := by simp [Memory.wf_iff]

theorem Memory.wf_extend {cap : Option Nat} {m : Memory} {c : List Byte} (h : Memory.fits cap m c.length = true) :
    Memory.wf cap (Memory.extend m c) = true := by
  simpa [Memory.wf_iff, Memory.fits_iff, Memory.extend] using h

theorem Memory.wf_consume {cap : Option Nat} {m : Memory} (n : Nat) (h : Memory.wf cap m = true) :
    Memory.wf cap (Memory.consume m n) = true := by
  rw [Memory.wf_iff] at h ⊢
  intro limit hl
  have := h limit hl
  simp only [Memory.consume, List.length_drop]
  omega

/-- A byte of BUF keeps its offset when a chunk is appended. -/
theorem Memory.byteAt_extend {m : Memory} (c : List Byte) {k : Nat} (h : k < m.length) :
    Memory.byteAt (Memory.extend m c) k = Memory.byteAt m k := by
  simp [Memory.byteAt, Memory.extend, List.getElem?_append_left h]

/-- When a prefix is consumed, every remaining byte's offset falls by its length (20 R40). -/
theorem Memory.byteAt_consume (m : Memory) (n k : Nat) :
    Memory.byteAt (Memory.consume m n) k = Memory.byteAt m (n + k) := by
  simp [Memory.byteAt, Memory.consume]

/-- The cells of BUF have strictly rising addresses. -/
theorem Memory.cells_rising (m : Memory) : ((Memory.cells m).map Prod.fst).Pairwise (· < ·) := by
  have h : (Memory.cells m).map Prod.fst = List.range' 0 m.length := by
    simp only [Memory.cells, List.map_map]
    exact List.zipIdx_map_snd 0 m
  rw [h]
  exact List.pairwise_lt_range'

/-- Each cell is the byte of BUF at its address. -/
theorem Memory.mem_cells {m : Memory} {k : Nat} {b : Byte} :
    (k, b) ∈ Memory.cells m ↔ Memory.byteAt m k = some b := by
  simp only [Memory.cells, Memory.byteAt, List.mem_map, Prod.mk.injEq]
  constructor
  · rintro ⟨⟨b', k'⟩, hmem, rfl, rfl⟩
    exact List.mem_zipIdx_iff_getElem?.1 hmem
  · intro h
    exact ⟨(b, k), List.mem_zipIdx_iff_getElem?.2 h, rfl, rfl⟩

end Sys2Proof.Machine
end

