-- ==== Sys2Proof/Laws/PerInstr.lean ====
section
/-! SUPPORT. Statements for all instructions, one lemma per constructor. RowMatch: the transfer of a well-formed
instruction selects its own row of the opcode table (spec/30_encoding.md R73) and obeys its payload column. -/

namespace Sys2Proof.Laws.RowMatch

/-- The row of an instruction (30 R73): opcodes 1 to 8 in the table's order. -/
def rowOf : Instr → Row
  | .crcInit => ⟨.crcInit, 0x1000, 0xFFFF, false⟩
  | .crcUpdate _ => ⟨.crcUpdate, 0x2000, 0xFF00, false⟩
  | .crcRead => ⟨.crcRead, 0x3000, 0xFFFF, false⟩
  | .setId _ => ⟨.setId, 0x4000, 0xFF00, false⟩
  | .getId => ⟨.getId, 0x5000, 0xFFFF, false⟩
  | .encode _ _ _ => ⟨.encode, 0x6000, 0xF800, true⟩
  | .decode _ => ⟨.decode, 0x7000, 0xFFFF, true⟩
  | .nextFrame => ⟨.nextFrame, 0x8000, 0xFFFF, false⟩

/-- The row is in the table, the instruction's word selects it, and a payload stands only where the row allows it. -/
def Statement (i : Instr) : Prop :=
  rowOf i ∈ opcodeTable ∧ (rowOf i).selects (encode i).word = true ∧
    ((rowOf i).payloadAllowed = false → (encode i).payload = [])

theorem crcInit : Statement .crcInit := by
  refine ⟨by decide, by decide, fun _ => rfl⟩

theorem crcUpdate (imm8 : Byte) : Statement (.crcUpdate imm8) := by
  refine ⟨by simp [rowOf, opcodeTable], ?_, fun _ => rfl⟩
  simp only [rowOf, Row.selects, encode, beq_iff_eq]
  rw [and_mask_high_byte _ 0x2000 (by decide), wordB_high]

theorem crcRead : Statement .crcRead := by
  refine ⟨by decide, by decide, fun _ => rfl⟩

theorem setId (imm8 : Byte) : Statement (.setId imm8) := by
  refine ⟨by simp [rowOf, opcodeTable], ?_, fun _ => rfl⟩
  simp only [rowOf, Row.selects, encode, beq_iff_eq]
  rw [and_mask_high_byte _ 0x4000 (by decide), wordB_high]

theorem getId : Statement .getId := by
  refine ⟨by decide, by decide, fun _ => rfl⟩

theorem encode (sel : FunSel) (dest : Byte) (data : List Byte) : Statement (.encode sel dest data) := by
  refine ⟨by simp [rowOf, opcodeTable], ?_, fun h => by simp [rowOf] at h⟩
  simp only [rowOf, Row.selects, Sys2Proof.encode, beq_iff_eq]
  rw [and_mask_high_five _ 0x6000 (by decide), wordE_high]

theorem decode (window : List Byte) : Statement (.decode window) := by
  refine ⟨by simp [rowOf, opcodeTable], ?_, fun h => by simp [rowOf] at h⟩
  simp only [rowOf, Row.selects, Sys2Proof.encode, beq_iff_eq]
  decide

theorem nextFrame : Statement .nextFrame := by
  refine ⟨by decide, by decide, fun _ => rfl⟩

end Sys2Proof.Laws.RowMatch
end

