-- ==== Sys2Proof/Laws/Step.lean ====
section
/-! SUPPORT. What a command, a step of the block and a step of the machine can do, once for each: every later proof
takes the cases from here. -/

namespace Sys2Proof.Machine

/-- The registers after a command that answers at once: CRC_ACC by CRC_INIT and CRC_UPDATE, LOCAL_ID by SET_ID. -/
def registersAfter (i : Instr) (s : State) : State :=
  match i with
  | .crcInit => { s with crcAcc := s.cfg.crcAlg.init }
  | .crcUpdate b => { s with crcAcc := crcStep s.cfg.crcAlg s.crcAcc b }
  | .setId b => { s with localId := b }
  | _ => s

/-- What a command can do: NEXT_FRAME from IDLE begins CHECK; every other command that goes on answers. -/
theorem exec_cases {i : Instr} {s t : State} (h : exec i s = .next t) :
    (i = .nextFrame ∧ s.syncState = .idle ∧ t = { s with cmdBusy := true, syncState := .check }) ∨
    (∃ st v, t = respond st v (registersAfter i s)) := by
  cases i with
  | crcInit => cases h; exact .inr ⟨_, _, rfl⟩
  | crcUpdate b => cases h; exact .inr ⟨_, _, rfl⟩
  | crcRead => cases h; exact .inr ⟨_, _, rfl⟩
  | setId b => cases h; exact .inr ⟨_, _, rfl⟩
  | getId => cases h; exact .inr ⟨_, _, rfl⟩
  | encode sel dest data =>
    simp only [exec, execEncode] at h
    split at h
    · cases h; exact .inr ⟨_, _, rfl⟩
    · split at h <;> (cases h; exact .inr ⟨_, _, rfl⟩)
  | decode w =>
    simp only [exec, execDecode] at h
    split at h <;> (cases h; exact .inr ⟨_, _, rfl⟩)
  | nextFrame =>
    simp only [exec, execNextFrame] at h
    split at h
    · rename_i hs; cases h; exact .inl ⟨rfl, hs, rfl⟩
    · cases h; exact .inr ⟨_, _, rfl⟩
    · cases h; exact .inr ⟨_, _, rfl⟩
    · cases h; exact .inr ⟨_, _, rfl⟩
    all_goals cases h

@[simp] theorem registersAfter_frame (i : Instr) (s : State) :
    (registersAfter i s).cfg = s.cfg ∧ (registersAfter i s).syncState = s.syncState ∧
    (registersAfter i s).cur = s.cur ∧ (registersAfter i s).buf = s.buf ∧ (registersAfter i s).short = s.short ∧
    (registersAfter i s).cmdBusy = s.cmdBusy ∧ (registersAfter i s).inputs = s.inputs ∧
    (registersAfter i s).out = s.out ∧ (registersAfter i s).reads = s.reads ∧
    (registersAfter i s).abandoned = s.abandoned := by
  cases i <;> simp [registersAfter]

/-- What the block's own step can do (43 R152, R159 to R161), or that it waits. -/
theorem blockStep_cases {s t : State} (h : blockStep s = .next t) :
    (ownStepReady s = false ∧ t = s) ∨
    (s.cmdBusy = true ∧ s.syncState = .check ∧ t = checkStep s) ∨
    (s.cmdBusy = true ∧ s.syncState = .scan ∧ ∃ f, decodeAt s.cfg s.buf s.cur = .ok f ∧ t = scanMatch f s) ∨
    (s.cmdBusy = true ∧ s.syncState = .scan ∧ (∃ e, decodeAt s.cfg s.buf s.cur = .error e) ∧
      s.cur + s.cfg.minMessageSize < s.buf.length ∧ t = { s with cur := s.cur + 1 }) ∨
    (s.cmdBusy = true ∧ s.syncState = .scan ∧ (∃ e, decodeAt s.cfg s.buf s.cur = .error e) ∧
      s.cur + s.cfg.minMessageSize = s.buf.length ∧ t = setShort { s with cur := 0, syncState := .check }) := by
  unfold blockStep at h
  cases hb : s.cmdBusy
  · rw [hb] at h; cases h; exact .inl ⟨by simp [ownStepReady, hb], rfl⟩
  · rw [hb, if_pos rfl] at h
    cases hs : s.syncState <;> rw [hs] at h
    case check => cases h; exact .inr (.inl ⟨rfl, rfl, rfl⟩)
    case scan =>
      simp only [scanStep] at h
      split at h
      · rename_i f hf; cases h; exact .inr (.inr (.inl ⟨rfl, rfl, f, hf, rfl⟩))
      · rename_i e he
        split at h
        · rename_i hlt; cases h; exact .inr (.inr (.inr (.inl ⟨rfl, rfl, ⟨e, he⟩, hlt, by rw [hs, hb]⟩)))
        · split at h
          · rename_i heq; cases h; exact .inr (.inr (.inr (.inr ⟨rfl, rfl, ⟨e, he⟩, heq, by rw [hb]⟩)))
          · cases h
    all_goals (cases h; exact .inl ⟨by simp [ownStepReady, hs], rfl⟩)

/-- In READ the block takes no step of its own (43 R153). -/
theorem blockStep_read {s : State} (hs : s.syncState = .read) : blockStep s = .next s := by
  unfold blockStep
  rw [hs]
  split <;> rfl

/-- What CHECK does (43 R152). -/
theorem checkStep_cases (s : State) :
    ((s.buf = [] ∨ s.short = true) ∧ checkStep s = startRead s) ∨
    (s.buf ≠ [] ∧ s.short = false ∧ s.buf.length < s.cfg.minMessageSize ∧ checkStep s = startRead (setShort s)) ∨
    (s.buf ≠ [] ∧ s.short = false ∧ s.cfg.minMessageSize ≤ s.buf.length ∧
      checkStep s = { s with cur := 0, syncState := .scan }) := by
  unfold checkStep mustRead
  by_cases hm : (s.buf.isEmpty || s.short) = true
  · rw [if_pos hm]
    simp only [Bool.or_eq_true, List.isEmpty_iff] at hm
    exact .inl ⟨hm, rfl⟩
  · rw [if_neg hm]
    simp only [Bool.or_eq_true, List.isEmpty_iff, not_or, Bool.not_eq_true] at hm
    by_cases hl : s.buf.length < s.cfg.minMessageSize
    · rw [if_pos hl]; exact .inr (.inl ⟨hm.1, hm.2, hl, rfl⟩)
    · rw [if_neg hl]; exact .inr (.inr ⟨hm.1, hm.2, by omega, rfl⟩)

/-- What a transport answer does to the block (43 R154, R155, R156, R158). -/
theorem takeAnswer_cases (a : Answer) (s : State) :
    (∃ y e, (y, e) ∈ [(SyncState.terr, Status.transportError), (.eos, .endOfStream), (.ovf, .bufferOverflow)] ∧
      takeAnswer a s = endStream y e s) ∨
    (∃ c, a = .chunk c ∧ c ≠ [] ∧ Memory.fits s.cfg.bufCap s.buf c.length = true ∧
      takeAnswer a s = { appendChunk c s with syncState := .check }) := by
  match a with
  | .error => exact .inl ⟨_, _, by simp, rfl⟩
  | .fin => exact .inl ⟨.eos, .endOfStream, by simp, rfl⟩
  | .chunk [] => exact .inl ⟨.eos, .endOfStream, by simp, rfl⟩
  | .chunk (b :: c) =>
    simp only [takeAnswer]
    split
    · rename_i hf; exact .inr ⟨b :: c, rfl, by simp, hf, rfl⟩
    · exact .inl ⟨.ovf, .bufferOverflow, by simp, rfl⟩

@[simp] theorem AnswerSource.next_cycle_nil (readMax read : Nat) :
    AnswerSource.next readMax read (.cycle []) = none := rfl

@[simp] theorem AnswerSource.next_cycle_cons (readMax read : Nat) (a : Answer) (later : List Answer) :
    AnswerSource.next readMax read (.cycle (a :: later)) = some (a, .cycle (later ++ [a])) := rfl

/-- A draw keeps the transport's duty: at most READ_MAX bytes. -/
theorem drawnAnswer_size (readMax : Nat) (o : Option (List Byte)) : Answer.size (drawnAnswer readMax o) ≤ readMax := by
  cases o with
  | none => exact Nat.zero_le _
  | some c => simp only [drawnAnswer, Answer.size, List.length_take]; omega

/-- An answer to the outstanding read is taken (43 R154 to R158). -/
theorem receiveAnswer_outstanding {a : Answer} {s : State} (hb : s.cmdBusy = true) (hs : s.syncState = .read)
    (hz : Answer.size a ≤ s.cfg.readMax) : receiveAnswer s.reads a s = .next (takeAnswer a s) := by
  simp [receiveAnswer, hb, hs, Nat.not_lt.2 hz]

/-- The answer `a` to the outstanding read is next, alone or from a source, and leaves the inputs `l`. -/
def AnswerNext (s : State) (a : Answer) (l : List Input) : Prop :=
  s.inputs = .answer s.reads a :: l ∨ ∃ src src' rest, s.inputs = .stream src :: rest ∧
    AnswerSource.next s.cfg.readMax s.reads src = some (a, src') ∧ l = .stream src' :: rest

/-- What a source does in READ, when it goes on: it answers, or the block waits. -/
theorem receiveStream_cases {src : AnswerSource} {rest : List Input} {s t : State} (hb : s.cmdBusy = true)
    (hs : s.syncState = .read) (h : receiveStream src rest s = .next t) : t = s ∨
    ∃ a src', AnswerSource.next s.cfg.readMax s.reads src = some (a, src') ∧ Answer.size a ≤ s.cfg.readMax ∧
      t = takeAnswer a { s with inputs := .stream src' :: rest } := by
  unfold receiveStream at h
  split at h
  · cases h; exact .inl rfl
  · rename_i a src' hn
    by_cases hz : Answer.size a ≤ s.cfg.readMax
    · have hr := receiveAnswer_outstanding (a := a) (s := { s with inputs := .stream src' :: rest }) hb hs hz
      rw [hr] at h; cases h
      exact .inr ⟨a, src', hn, hz, rfl⟩
    · simp [receiveAnswer, Nat.lt_of_not_le hz] at h

/-- What a step can do, when it goes on: a reset, a step of the block, an illegal transfer, a command, an answer to
the outstanding read, an answer to an abandoned one. -/
theorem step_cases {s t : State} (h : step s = .next t) :
    (∃ rest, s.inputs = .reset :: rest ∧ t = resetEvent { s with inputs := rest }) ∨
    (takesReset s = false ∧ ∃ l, (l = s.inputs ∨ s.inputs = .wait :: l ∨
      ∃ src, s.inputs = .stream src :: l) ∧ blockStep { s with inputs := l } = .next t) ∨
    (∃ w p rest e, s.inputs = .transfer w p :: rest ∧ s.cmdBusy = false ∧ decodeCmd w p = .error e ∧
      t = raise .illegalCommand { s with inputs := rest }) ∨
    (∃ w p rest i, s.inputs = .transfer w p :: rest ∧ s.cmdBusy = false ∧ decodeCmd w p = .ok i ∧
      exec i { s with inputs := rest } = .next t) ∨
    (∃ a l, AnswerNext s a l ∧ s.cmdBusy = true ∧ s.syncState = .read ∧
      Answer.size a ≤ s.cfg.readMax ∧ t = takeAnswer a { s with inputs := l }) ∨
    (∃ n a rest, s.inputs = .answer n a :: rest ∧ ownStepReady s = false ∧ n ∈ s.abandoned ∧
      t = { s with inputs := rest, abandoned := s.abandoned.erase n }) := by
  unfold step at h
  cases hi : s.inputs with
  | nil =>
    rw [hi] at h
    refine .inr (.inl ⟨by simp [takesReset, hi], [], .inl rfl, ?_⟩)
    rw [← hi]; exact h
  | cons x rest =>
    rw [hi] at h
    cases x with
    | reset => cases h; exact .inl ⟨rest, rfl, rfl⟩
    | wait => exact .inr (.inl ⟨by simp [takesReset, hi], rest, .inr (.inl rfl), h⟩)
    | transfer w p =>
      by_cases hr : ownStepReady s = true
      · simp only [hr, if_true] at h
        refine .inr (.inl ⟨by simp [takesReset, hi], .transfer w p :: rest, .inl rfl, ?_⟩)
        rw [← hi]; exact h
      · simp only [hr, Bool.false_eq_true, if_false] at h
        cases hb : s.cmdBusy
        · simp only [hb, Bool.false_eq_true, if_false, acceptTransfer] at h
          cases hd : decodeCmd w p with
          | ok i =>
            rw [hd] at h
            exact .inr (.inr (.inr (.inl ⟨w, p, rest, i, rfl, rfl, hd, h⟩)))
          | error e =>
            rw [hd] at h; cases h
            exact .inr (.inr (.inl ⟨w, p, rest, e, rfl, rfl, hd, rfl⟩))
        · simp [hb] at h
    | answer n a =>
      by_cases hr : ownStepReady s = true
      · simp only [hr, if_true] at h
        refine .inr (.inl ⟨by simp [takesReset, hi], .answer n a :: rest, .inl rfl, ?_⟩)
        rw [← hi]; exact h
      · simp only [hr, Bool.false_eq_true, if_false, receiveAnswer] at h
        split at h
        · cases h
        · rename_i hsize
          split at h
          · rename_i hcond
            simp only [Bool.and_eq_true, beq_iff_eq] at hcond
            obtain ⟨⟨hb, hs⟩, rfl⟩ := hcond
            cases h
            exact .inr (.inr (.inr (.inr (.inl ⟨a, rest, .inl hi, hb, hs, by simpa using hsize, rfl⟩))))
          · split at h
            · rename_i hab
              cases h
              exact .inr (.inr (.inr (.inr (.inr ⟨n, a, rest, rfl, by simpa using hr, by simpa using hab, rfl⟩))))
            · cases h
    | stream src =>
      by_cases hr : ownStepReady s = true
      · simp only [hr, if_true] at h
        refine .inr (.inl ⟨by simp [takesReset, hi], .stream src :: rest, .inl rfl, ?_⟩)
        rw [← hi]; exact h
      · simp only [hr, Bool.false_eq_true, if_false] at h
        by_cases hc : (s.cmdBusy && s.syncState == .read) = true
        · rw [if_pos hc] at h
          simp only [Bool.and_eq_true, beq_iff_eq] at hc
          rcases receiveStream_cases hc.1 hc.2 h with rfl | ⟨a, src', hn, hz, rfl⟩
          · refine .inr (.inl ⟨by simp [takesReset, hi], .stream src :: rest, .inl rfl, ?_⟩)
            rw [← hi]; exact blockStep_read hc.2
          · exact .inr (.inr (.inr (.inr (.inl
              ⟨a, _, .inr ⟨src, src', rest, hi, hn, rfl⟩, hc.1, hc.2, hz, rfl⟩))))
        · rw [if_neg hc] at h
          exact .inr (.inl ⟨by simp [takesReset, hi], rest, .inr (.inr ⟨src, rfl⟩), h⟩)

@[simp] theorem runSteps_zero (s : State) : runSteps 0 s = .next s := rfl

theorem runSteps_succ {s t : State} (h : step s = .next t) (k : Nat) : runSteps (k + 1) s = runSteps k t := by
  rw [runSteps, h]

/-- A run is the host's run of the core. -/
theorem runSteps_eq_core_run (k : Nat) (s : State) : runSteps k s = Host.Core.run Sys2Proof.core k s := by
  induction k generalizing s with
  | zero => rfl
  | succ k ih =>
    cases hs : step s with
    | next t =>
      have hc : Sys2Proof.core.step s = .next t := hs
      simp only [runSteps, Host.Core.run, hs, hc]
      exact ih t
    | fault r =>
      have hc : Sys2Proof.core.step s = .fault r := hs
      simp only [runSteps, Host.Core.run, hs, hc]
      rfl
    | refused r =>
      have hc : Sys2Proof.core.step s = .refused r := hs
      simp only [runSteps, Host.Core.run, hs, hc]
      rfl

/-- Two runs, one after the other. -/
theorem runSteps_add {j : Nat} {s t : State} (h : runSteps j s = .next t) (k : Nat) :
    runSteps (j + k) s = runSteps k t := by
  induction j generalizing s with
  | zero => cases h; rw [Nat.zero_add]
  | succ j ih =>
    rw [Nat.succ_add]
    cases hs : step s with
    | next u =>
      simp only [runSteps, hs] at h ⊢
      exact ih h
    | fault r => simp only [runSteps, hs] at h; cases h
    | refused r => simp only [runSteps, hs] at h; cases h

end Sys2Proof.Machine
end

