-- ==== Sys2Proof/Tests/Slice0.lean ====
section
/-! SUPPORT. Tests: one step on a small state each, with the values of spec/95_test_vectors.md (the vector's name
stands in the comment) or of the encoding tables of spec/30_encoding.md; and, for every statement with hypotheses, a
witness that meets them together, clause by clause and at the ends of the ranges. -/

namespace Sys2Proof.Tests

open Sys2Proof.Machine

/-! ### Helpers -/

/-- The outcome is a next state with that property. -/
def nextIs (o : Host.Outcome State Fault Refusal) (p : State → Bool) : Bool :=
  match o with
  | .next t => p t
  | .fault _ => false
  | .refused _ => false

/-- The outcome is that refusal. -/
def refusedWith (o : Host.Outcome State Fault Refusal) (r : Refusal) : Bool :=
  match o with
  | .next _ => false
  | .fault _ => false
  | .refused x => x == r

/-- The outcome is that fault. -/
def faultIs (o : Host.Outcome State Fault Refusal) (r : Fault) : Bool :=
  match o with
  | .next _ => false
  | .fault x => x == r
  | .refused _ => false

/-- One step with that transfer at the command port. -/
def issue (w : U16) (p : List Byte) (s : State) : Host.Outcome State Fault Refusal :=
  step { s with inputs := [.transfer w p] }

/-- That transfer changes nothing in the reset state and gets (22, none). -/
def illegalAtReset (w : U16) (p : List Byte) : Bool :=
  nextIs (issue w p State.reset)
    (fun t => t == { State.reset with out := [.response ⟨.illegalCommand, .noValue⟩] })

/-- A state with one read issued, BUF at `m`, in SYNC_STATE `y`. -/
def inState (y : SyncState) (m : List Byte) (inputs : List Input) : State :=
  { State.reset with syncState := y, cmdBusy := y.inFlight, buf := m, inputs := inputs, reads := 1 }

/-- FE1, the frame of V-E1 (95 section 0). -/
def fe1 : List Byte := [0x01, 0x00, 0x63, 0x00, 0x03, 0x00, 0x00, 0x0B, 0x00, 0x01, 0x10, 0x89, 0x76]

/-- F1 (95 section 0). -/
def f1 : List Byte := [0x63, 0x00, 0x01, 0x00, 0x04, 0x00, 0x00, 0x06, 0x00, 0x01, 0x10, 0x2A, 0x81, 0x6D]

/-- FMIN (V-E13, V-D16): the minimum frame. -/
def fmin : List Byte := [0x00, 0x00, 0x00, 0x00, 0x01, 0x00, 0x00, 0x06, 0x00, 0x3E, 0x60]

/-- The record of FMIN (V-D16). -/
def fminRecord : Frame :=
  { dst := 0x00, src := 0x00, len := 1, fcode := 0x06, ftag := .reply, data := [0x00], checksum := 0x603E }

/-! ### Well-formed terms: the one check, refused and passed -/

theorem test_wf_refuses_reply_as_unrecognized : (Instr.encode (.unrecognized 0) 0x01 []).wf = false := by decide
theorem test_wf_refuses_read_as_unrecognized : (Instr.encode (.unrecognized 1) 0x01 []).wf = false := by decide
theorem test_wf_refuses_write_as_unrecognized : (Instr.encode (.unrecognized 2) 0x01 []).wf = false := by decide
theorem test_wf_refuses_error_as_unrecognized : (Instr.encode (.unrecognized 3) 0x01 []).wf = false := by decide
theorem test_wf_passes_unrecognized : (Instr.encode (.unrecognized 4) 0x01 [0x00]).wf = true := by decide

/-! ### Decoding: words written out bit by bit from 30 R69 to R73 (OPC | the format's fields) -/

theorem test_decode_crcInit : decodeCmd 0b0001_000000000000 [] = .ok .crcInit := by decide
theorem test_decode_crcUpdate : decodeCmd 0b0010_0000_10100101 [] = .ok (.crcUpdate 0xA5) := by decide
theorem test_decode_crcRead : decodeCmd 0b0011_000000000000 [] = .ok .crcRead := by decide
theorem test_decode_setId : decodeCmd 0b0100_0000_10000001 [] = .ok (.setId 0x81) := by decide
theorem test_decode_getId : decodeCmd 0b0101_000000000000 [] = .ok .getId := by decide
theorem test_decode_encode_write :
    decodeCmd 0b0110_0_010_00000010 [0x05] = .ok (.encode .write 0x02 [0x05]) := by decide
theorem test_decode_encode_unrecognized :
    decodeCmd 0b0110_0_111_00000001 [] = .ok (.encode (.unrecognized 7) 0x01 []) := by decide
theorem test_decode_decode : decodeCmd 0b0111_000000000000 [0xAA] = .ok (.decode [0xAA]) := by decide
theorem test_decode_nextFrame : decodeCmd 0b1000_000000000000 [] = .ok .nextFrame := by decide
/-- V-X1 to V-X3: reserved opcodes, with or without a payload. -/
theorem test_decode_reserved_opcodes :
    decodeCmd 0x0000 [] = .error .reservedOpcode ∧ decodeCmd 0x9000 [] = .error .reservedOpcode ∧
    decodeCmd 0xF123 [0x01, 0x02] = .error .reservedOpcode := by decide
/-- V-X4, V-X8, V-C24, V-I6, V-E11: the RSV bits of every format. -/
theorem test_decode_reserved_bits :
    decodeCmd 0x1001 [] = .error .reservedBits ∧ decodeCmd 0x5080 [] = .error .reservedBits ∧
    decodeCmd 0x2101 [] = .error .reservedBits ∧ decodeCmd 0x4110 [] = .error .reservedBits ∧
    decodeCmd 0x6901 [0x00, 0x01, 0x10] = .error .reservedBits ∧ decodeCmd 0x7001 fe1 = .error .reservedBits := by
  decide
/-- V-C23, V-I7, V-X5, V-X6: a payload where none may be. -/
theorem test_decode_payload_not_allowed :
    decodeCmd 0x2001 [0x00] = .error .payloadNotAllowed ∧ decodeCmd 0x4010 [0x00] = .error .payloadNotAllowed ∧
    decodeCmd 0x1000 [0x00] = .error .payloadNotAllowed ∧ decodeCmd 0x8000 [0x00] = .error .payloadNotAllowed := by
  decide
/-- The table's numbering: 16 bits, no payload. -/
theorem test_table_word :
    decodeTableWord 16 0x2056 = some (.crcUpdate 0x56) ∧ decodeTableWord 16 0x6302 = some (.encode .error 0x02 []) ∧
    decodeTableWord 16 0x0000 = none := by decide
/-- P4: crc.check of two bytes; a comment line; a number that is no byte; a line that ends inside its list. -/
theorem test_assemble :
    assemble "crc.check [0x01, 137]".toList = some [⟨0x1000, []⟩, ⟨0x2001, []⟩, ⟨0x2089, []⟩, ⟨0x3000, []⟩] ∧
    assemble "; only a comment".toList = some [] ∧ assemble "crc.update 256".toList = none ∧
    assemble "dec [1,".toList = none := by decide

/-! ### The CRC generator -/

/-- V-C14. -/
theorem test_crcInit : nextIs (issue 0x1000 [] { State.reset with crcAcc := 0xBB3D })
    (fun t => t.crcAcc == 0x0000 && responses t == [⟨.ok, .noValue⟩]) = true := by decide
/-- V-C19. -/
theorem test_crcUpdate_general : nextIs (issue 0x2056 [] { State.reset with crcAcc := 0x1234 })
    (fun t => t.crcAcc == 0xE993 && responses t == [⟨.ok, .noValue⟩]) = true := by decide
/-- V-C18. -/
theorem test_crcUpdate_zero_byte : nextIs (issue 0x2000 [] { State.reset with crcAcc := 0xFFFF })
    (fun t => t.crcAcc == 0x40BF) = true := by decide
/-- V-C20. -/
theorem test_crcRead : nextIs (issue 0x3000 [] { State.reset with crcAcc := 0xBB3D })
    (fun t => t.crcAcc == 0xBB3D && responses t == [⟨.ok, .u16 0xBB3D⟩]) = true := by decide
set_option maxRecDepth 100000 in
/-- V-C6: the check value of "123456789". -/
theorem test_crc16_check_value :
    crc16 CrcAlg.arc [0x31, 0x32, 0x33, 0x34, 0x35, 0x36, 0x37, 0x38, 0x39] = 0xBB3D := by decide

/-! ### The codec -/

/-- V-I4. -/
theorem test_setId : nextIs (issue 0x40FF [] State.reset)
    (fun t => t.localId == 0xFF && responses t == [⟨.ok, .noValue⟩]) = true := by decide
/-- V-I5. -/
theorem test_getId : nextIs (issue 0x5000 [] { State.reset with localId := 0x10 })
    (fun t => responses t == [⟨.ok, .byte 0x10⟩]) = true := by decide
set_option maxRecDepth 100000 in
/-- V-E1. -/
theorem test_encode : nextIs (issue 0x6101 [0x00, 0x01, 0x10] State.reset)
    (fun t => responses t == [⟨.ok, .bytes fe1⟩]) = true := by decide
set_option maxRecDepth 100000 in
/-- V-E10: the length is checked before the function. -/
theorem test_encode_length_first : nextIs (issue 0x6701 (List.replicate 256 0x00) State.reset)
    (fun t => responses t == [⟨.argumentOutOfRange, .noValue⟩]) = true := by decide
set_option maxRecDepth 100000 in
/-- V-D7: nonzero reserved bytes, an unknown function. -/
theorem test_decode : nextIs
    (issue 0x7000 [0x63, 0x7F, 0x01, 0x7F, 0x02, 0x11, 0x22, 0x42, 0xAB, 0xCD, 0x71, 0xA0] State.reset)
    (fun t => responses t == [⟨.ok, .frame
      { dst := 0x63, src := 0x01, len := 2, fcode := 0x42, ftag := .unknown, data := [0xAB, 0xCD],
        checksum := 0xA071 }⟩]) = true := by decide
/-- V-D8: the length byte is tested before the window. -/
theorem test_decode_length_zero : nextIs
    (issue 0x7000 [0x01, 0x00, 0x63, 0x00, 0x00, 0x00, 0x00, 0x0B, 0x89, 0x98, 0x00] State.reset)
    (fun t => responses t == [⟨.lengthZero, .noValue⟩]) = true := by decide

/-! ### The synchronizer, one step at a time -/

/-- P3, line 1. -/
theorem test_nextFrame_idle : nextIs (issue 0x8000 [] State.reset)
    (fun t => t.syncState == .check && t.cmdBusy && t.out == []) = true := by decide
/-- V-X10. -/
theorem test_nextFrame_overflow : nextIs (issue 0x8000 [] (inState .ovf [] []))
    (fun t => t.syncState == .ovf && t.reads == 1 && responses t == [⟨.bufferOverflow, .noValue⟩]) = true := by decide
/-- V-S5: three bytes are too few, so SHORT is set and the block reads. -/
theorem test_check_short : nextIs (step (inState .check [0x01, 0x02, 0x03] []))
    (fun t => t.short && t.syncState == .read && t.out == [.transportRead 2 256]) = true := by decide
set_option maxRecDepth 100000 in
/-- V-S11: the scan reaches the last offset, and the frame there is returned. -/
theorem test_scan_last_offset : nextIs (step { inState .scan (0xEE :: fmin) [] with cur := 1 })
    (fun t => t.buf == [] && t.syncState == .idle && responses t == [⟨.ok, .frame fminRecord⟩]) = true := by decide
/-- V-S1: CUR moves past an offset that does not decode. -/
theorem test_scan_moves_on : nextIs (step (inState .scan (0xEE :: fmin) []))
    (fun t => t.cur == 1 && t.syncState == .scan && t.out == []) = true := by decide
/-- V-S7: a chunk of 5 behind 12 bytes exceeds BUF_CAP 16 and is discarded. -/
theorem test_answer_overflow : nextIs
    (step { inState .read (List.replicate 12 0x00) [.answer 1 (.chunk (List.replicate 5 0x11))] with
      cfg := { Config.default with bufCap := some 16 } })
    (fun t => t.syncState == .ovf && t.buf == List.replicate 12 0x00 && !t.cmdBusy &&
      responses t == [⟨.bufferOverflow, .noValue⟩]) = true := by decide
/-- V-S3: End. -/
theorem test_answer_end : nextIs (step (inState .read [] [.answer 1 .fin]))
    (fun t => t.syncState == .eos && responses t == [⟨.endOfStream, .noValue⟩]) = true := by decide
/-- V-S13: a reset in READ; the late answer's bytes never enter BUF. -/
theorem test_late_answer_is_discarded : nextIs
    (runSteps 2 (inState .read [0xFF, 0x00] [.reset, .answer 1 (.chunk f1)]))
    (fun t => t.buf == [] && t.syncState == .idle && t.abandoned == [] && t.out == []) = true := by decide

/-- A transport that answers for ever stays next at the port after each answer, the next of its answers first; with no
NEXT_FRAME in flight it passes. -/
theorem test_stream :
    nextIs (step (inState .read [] [.stream (.cycle [.chunk [0xAA], .fin]), .reset]))
      (fun t => t.buf == [0xAA] && t.syncState == .check &&
        t.inputs == [.stream (.cycle [.fin, .chunk [0xAA]]), .reset]) = true ∧
    nextIs (step (inState .idle [] [.stream (.cycle [.fin]), .reset])) (fun t => t.inputs == [.reset]) = true := by decide

/-! ### The machine -/

set_option maxRecDepth 100000 in
/-- The first step after reset runs the command placed there. -/
theorem test_first_step :
    nextIs (step (State.reset.withFetchWord 16 0x4010)) (fun t => t.localId == 0x10 && t.inputs == []) = true ∧
    nextIs (step (State.reset.withFetchWord 16 0x8000)) (fun t => t.syncState == .check) = true ∧
    nextIs (step (State.reset.withFetchWord 16 0x6101)) (fun t => responses t == [⟨.ok, .bytes
      [0x01, 0x00, 0x63, 0x00, 0x00, 0x00, 0x00, 0x0B, 0x89, 0x98]⟩]) = true := by decide
/-- V-X1, V-X5, V-X6. -/
theorem test_illegal_leaves_no_trace :
    illegalAtReset 0x0000 [] = true ∧ illegalAtReset 0x1000 [0x00] = true ∧ illegalAtReset 0x8000 [0x00] = true := by
  decide
set_option maxRecDepth 100000 in
/-- 60 R214: the duties, one broken at a time. -/
theorem test_broken_duties :
    refusedWith (step (inState .read [] [.transfer 0x5000 []])) .transferWhileBusy = true ∧
    refusedWith (step (inState .read [] [.answer 2 .fin])) .answerWithoutRead = true ∧
    refusedWith (step (inState .read [] [.answer 1 (.chunk (List.replicate 257 0x00))])) .chunkTooLong = true := by
  decide
/-- The two faults stand in states that no run reaches (log entry 11). -/
theorem test_faults :
    faultIs (exec .nextFrame (inState .check [] [])) .nextFrameInFlight = true ∧
    faultIs (step (inState .scan [0x00] [])) .scanOutOfRange = true := by decide
/-- 20 R40: offsets count from the oldest byte. -/
theorem test_memory :
    Memory.byteAt [0xAA, 0xBB] 1 = some 0xBB ∧ Memory.byteAt [0xAA, 0xBB] 2 = none ∧
    Memory.cells (Memory.consume (Memory.extend [0xAA] [0xBB, 0xCC]) 1) = [(0, 0xBB), (1, 0xCC)] := by decide

/-! ### Witnesses: for every statement with hypotheses, a state and operands that meet them together -/

/-- The invariant in a state whose BUF has nothing to be scanned yet. -/
theorem blockInv_of {s : State} (hc : s.cfg.Specified) (hb : s.cmdBusy = s.syncState.inFlight) (h0 : s.cur = 0)
    (hshort : s.short = true → s.buf.length < 11)
    (hscan : s.syncState = .scan → s.short = false ∧ s.cfg.minMessageSize ≤ s.buf.length)
    (hread : s.syncState = .read → s.buf.length < 11 ∧ 1 ≤ s.reads ∧ s.reads ∉ s.abandoned)
    (hm : Memory.wf s.cfg.bufCap s.buf = true) (ha : ∀ n, n ∈ s.abandoned → 1 ≤ n ∧ n ≤ s.reads)
    (hd : s.abandoned.Nodup) : BlockInv s := by
  have hmin := hc.1
  have small : s.buf.length < 11 → NoFrame s := by
    intro hl k ⟨f, hf⟩
    have he : decodeAt s.cfg s.buf k = .error .frameTooShort :=
      decodeFrame_short (by rw [List.length_drop]; omega)
    rw [he] at hf; cases hf
  exact
    { config := hc
      sync :=
        { a := hscan
          b := fun h _ k _ => small (hread h).1 k
          c := fun _ h => small (hshort h)
          d := fun h => small (hshort h)
          e := fun h => by rw [hb, h]; rfl }
      busy := hb
      cursor := fun h => by rw [h0, Nat.zero_add]; exact (hscan h).2
      cursorHome := fun _ => h0
      scanned := fun _ k hk => absurd hk (by omega)
      memory := hm
      abandonedIssued := ha
      abandonedOnce := hd
      outstanding := fun h => (hread h).2 }

/-- READ with three bytes in BUF; a transfer, an answer to read 1, or a reset is next. -/
theorem blockInv_read : BlockInv (inState .read [0x01, 0x02, 0x03] [.transfer 0x5000 []]) ∧
    BlockInv (inState .read [0x01, 0x02, 0x03] [.answer 1 .fin]) ∧
    BlockInv (inState .read [0x01, 0x02, 0x03] [.answer 1 .error]) ∧
    BlockInv (inState .read [0x01, 0x02, 0x03] [.reset]) := by
  refine ⟨?_, ?_, ?_, ?_⟩ <;> apply blockInv_of <;> decide

/-- CHECK and SCAN with a frame in BUF and a transfer next. -/
theorem blockInv_busy : BlockInv (inState .check (0xEE :: fmin) [.transfer 0x5000 []]) ∧
    BlockInv (inState .scan (0xEE :: fmin) [.transfer 0x5000 []]) := by
  refine ⟨?_, ?_⟩ <;> apply blockInv_of <;> decide

/-- READ and IDLE with read 1 abandoned and its answer next. -/
theorem blockInv_abandoned :
    BlockInv { inState .read [] [.answer 1 (.chunk [0x42])] with reads := 2, abandoned := [1] } ∧
    BlockInv { inState .idle [] [.answer 1 (.chunk [0x42])] with abandoned := [1] } := by
  refine ⟨?_, ?_⟩ <;> apply blockInv_of <;> decide

/-- IDLE with a byte kept and a command next; with no input at all. -/
theorem blockInv_idle : BlockInv (inState .idle [0x42] [.transfer 0x8000 []]) ∧ BlockInv (inState .eos [0x42] []) := by
  refine ⟨?_, ?_⟩ <;> apply blockInv_of <;> decide

theorem witness_DecodeOfEncodeIsTheInstruction :
    (Instr.encode (.unrecognized 7) 0xFF [0x00]).wf = true ∧ (Instr.encode .reply 0x00 []).wf = true := by decide
theorem witness_EncodeOfDecodedIsTheTransfer : decodeCmd 0x67FF [0x00] = .ok (.encode (.unrecognized 7) 0xFF [0x00]) := by
  decide
theorem witness_AtMostOneRowSelected :
    (⟨.setId, 0x4000, 0xFF00, false⟩ : Row) ∈ opcodeTable ∧
    Row.selects ⟨.setId, 0x4000, 0xFF00, false⟩ 0x40FF = true := by decide
/-- Each of the three cases, at both ends of its ranges. -/
theorem witness_IllegalTransferChangesNoState :
    (inState .idle [] [.transfer 0x0FFF []]).cmdBusy = false ∧ IllegalTransfer 0x0FFF [] ∧ IllegalTransfer 0x9000 [] ∧
    IllegalTransfer 0xFFFF [0x00] ∧ IllegalTransfer 0x1001 [] ∧ IllegalTransfer 0x8800 [] ∧ IllegalTransfer 0x2100 [] ∧
    IllegalTransfer 0x4800 [] ∧ IllegalTransfer 0x6800 [] ∧ IllegalTransfer 0x1000 [0x00] ∧
    IllegalTransfer 0x8000 [0x00] ∧ ¬ IllegalTransfer 0x6700 [0x00] := by
  refine ⟨rfl, ?_, ?_, ?_, ?_, ?_, ?_, ?_, ?_, ?_, ?_, ?_⟩ <;> (unfold IllegalTransfer; decide)
theorem witness_StepRunsTheDecodedCommand :
    (inState .idle [] [.transfer 0x20FF [], .wait]).inputs = .transfer 0x20FF [] :: [.wait] ∧
    (inState .idle [] [.transfer 0x20FF [], .wait]).cmdBusy = false ∧ decodeCmd 0x20FF [] = .ok (.crcUpdate 0xFF) := by
  decide
theorem witness_BusyPortTakesNoTransfer :
    BlockInv (inState .read [0x01, 0x02, 0x03] [.transfer 0x5000 []]) ∧
    (inState .read [0x01, 0x02, 0x03] [.transfer 0x5000 []]).cmdBusy = true ∧
    BlockInv (inState .check (0xEE :: fmin) [.transfer 0x5000 []]) ∧
    (inState .check (0xEE :: fmin) [.transfer 0x5000 []]).cmdBusy = true ∧
    BlockInv (inState .scan (0xEE :: fmin) [.transfer 0x5000 []]) ∧
    (inState .scan (0xEE :: fmin) [.transfer 0x5000 []]).cmdBusy = true :=
  ⟨blockInv_read.1, rfl, blockInv_busy.1, rfl, blockInv_busy.2, rfl⟩
theorem witness_CommandsKeepTheRestOfTheState :
    (∃ t, exec (.setId 0xFF) State.reset = .next t) ∧ (∃ t, exec .crcInit State.reset = .next t) ∧
    (∃ t, exec (.crcUpdate 0x01) State.reset = .next t) ∧ (∃ t, exec .nextFrame State.reset = .next t) ∧
    (∃ t, exec (.encode .read 0x01 []) State.reset = .next t) ∧ (∃ t, exec (.decode []) State.reset = .next t) ∧
    (∃ t, exec .crcRead State.reset = .next t) ∧ ∃ t, exec .getId State.reset = .next t :=
  ⟨⟨_, rfl⟩, ⟨_, rfl⟩, ⟨_, rfl⟩, ⟨_, rfl⟩, ⟨_, rfl⟩, ⟨_, rfl⟩, ⟨_, rfl⟩, ⟨_, rfl⟩⟩
/-- Also the witness of CrcInitEffect, CrcUpdateEffect, DecodeEffect's and every other statement's first premise; two
more configurations that the premise admits. -/
theorem witness_specified : State.reset.cfg.Specified ∧
    Config.Specified { Config.default with bufCap := some 0, readMax := 1 } ∧
    Config.Specified { Config.default with bufCap := some 16, readMax := 4096 } := by decide
/-- The port-level clauses of CrcInitEffect, CrcUpdateEffect, CrcReadEffect, SetIdEffect, GetIdEffect, DecodeEffect
and NextFrameAcceptance. -/
theorem witness_ready_port :
    (inState .idle [] [.transfer 0x1000 []]).cmdBusy = false ∧
    (inState .idle [] [.transfer 0x1000 []]).inputs = .transfer 0x1000 [] :: [] ∧
    (inState .eos [] [.transfer 0x20FF [], .reset]).inputs = .transfer (0x2000 ||| (0xFF : Byte).setWidth 16) [] :: [.reset] ∧
    (inState .eos [] [.transfer 0x20FF [], .reset]).cmdBusy = false ∧
    (inState .idle [] [.transfer 0x3000 []]).inputs = .transfer 0x3000 [] :: [] ∧
    (inState .idle [] [.transfer 0x4000 []]).inputs = .transfer (0x4000 ||| (0x00 : Byte).setWidth 16) [] :: [] ∧
    (inState .idle [] [.transfer 0x5000 []]).inputs = .transfer 0x5000 [] :: [] ∧
    (inState .idle [] [.transfer 0x7000 fe1]).inputs = .transfer 0x7000 fe1 :: [] ∧
    (inState .ovf [] [.transfer 0x8000 []]).inputs = .transfer 0x8000 [] :: [] ∧
    (inState .ovf [] [.transfer 0x8000 []]).cmdBusy = false := by decide
theorem witness_CrcOfComputesTheCrc :
    (inState .idle [] (transferInputs (crcOfTransfers []))).cmdBusy = false ∧
    (inState .idle [] [.transfer 0x1000 [], .transfer 0x2007 [], .transfer 0x3000 [], .wait]).inputs =
      transferInputs (crcOfTransfers [0x07]) ++ [.wait] := by decide
set_option maxRecDepth 100000 in
/-- FE1, at its first and at its last byte. -/
theorem witness_SingleByteChangeIsDetected :
    crc16 CrcAlg.arc fe1 = 0x0000 ∧ 0 < fe1.length ∧ 0x00 ≠ byteOf fe1 0 ∧ 12 < fe1.length ∧ 0xF6 ≠ byteOf fe1 12 := by
  decide
set_option maxRecDepth 100000 in
/-- Each clause, at the ends of the length's range. -/
theorem witness_EncodeEffect :
    255 < (List.replicate 256 (0x00 : Byte)).length ∧ (List.replicate 255 (0x00 : Byte)).length ≤ 255 ∧
    (FunSel.unrecognized 4 = .unrecognized 4) ∧ (∀ n, FunSel.error ≠ .unrecognized n) ∧
    (FunSel.error, (0x15 : Byte)) ∈ [(FunSel.reply, (0x06 : Byte)), (.read, 0x0B), (.write, 0x0C), (.error, 0x15)] := by
  decide
set_option maxRecDepth 100000 in
theorem witness_EncodeChecksInOrder :
    (inState .idle [] [.transfer 0x6801 (List.replicate 256 0x00)]).cmdBusy = false ∧
    (opcOf 0x6801).toNat = 6 ∧ (0x6801 : U16).getLsbD 11 = true ∧
    (opcOf 0x6701).toNat = 6 ∧ (0x6701 : U16).getLsbD 11 = false ∧ 4 ≤ (fselOf 0x6701).toNat ∧
    (opcOf 0x6401).toNat = 6 ∧ (0x6401 : U16).getLsbD 11 = false ∧ 4 ≤ (fselOf 0x6401).toNat ∧
    (opcOf 0x6301).toNat = 6 ∧ (0x6301 : U16).getLsbD 11 = false ∧ (fselOf 0x6301).toNat < 4 ∧
    ([0x06, 0x0B, 0x0C, 0x15] : List Byte)[(fselOf 0x6301).toNat]? = some 0x15 ∧
    255 < (List.replicate 256 (0x00 : Byte)).length ∧ (List.replicate 255 (0x00 : Byte)).length ≤ 255 := by decide
set_option maxRecDepth 100000 in
/-- V-E1; also the witness of FrameSizesAreBounded's first part. -/
theorem witness_EncodedFrameShape : exec (.encode .read 0x01 [0x00, 0x01, 0x10]) State.reset =
    .next { State.reset with cmdBusy := false, out := State.reset.out ++ [.response ⟨.ok, .bytes fe1⟩] } := by rfl
set_option maxRecDepth 100000 in
/-- The five cases: ten bytes; eleven with L = 0 (V-D8); L + 9 bytes (V-D4); a changed byte (V-D3); V-D16. -/
theorem witness_DecodeEffect :
    (List.replicate 10 (0x01 : Byte)).length < 11 ∧
    (11 ≤ ([0x01, 0x00, 0x63, 0x00, 0x00, 0x00, 0x00, 0x0B, 0x89, 0x98, 0x00] : List Byte).length ∧
      (byteOf [0x01, 0x00, 0x63, 0x00, 0x00, 0x00, 0x00, 0x0B, 0x89, 0x98, 0x00] 4).toNat = 0) ∧
    (11 ≤ (fe1.take 12).length ∧ 0 < (byteOf (fe1.take 12) 4).toNat ∧
      (fe1.take 12).length < (byteOf (fe1.take 12) 4).toNat + 10) ∧
    (11 ≤ (fe1.set 9 0x00).length ∧ 0 < (byteOf (fe1.set 9 0x00) 4).toNat ∧
      (byteOf (fe1.set 9 0x00) 4).toNat + 10 ≤ (fe1.set 9 0x00).length ∧
      crc16 CrcAlg.arc ((fe1.set 9 0x00).take ((byteOf (fe1.set 9 0x00) 4).toNat + 10)) ≠ 0x0000) ∧
    (11 ≤ fmin.length ∧ 0 < (byteOf fmin 4).toNat ∧ (byteOf fmin 4).toNat + 10 ≤ fmin.length ∧
      crc16 CrcAlg.arc (fmin.take ((byteOf fmin 4).toNat + 10)) = 0x0000) := by decide
theorem witness_DecodeIgnoresTrailingBytes :
    11 ≤ fmin.length ∧ (byteOf fmin 4).toNat + 10 ≤ fmin.length := by decide
set_option maxRecDepth 100000 in
/-- FE1: its first and last bytes; a length byte of 4 and of 255, of 0, of 1 and of 2; V-D12's frame with the length byte 1
meets the last clause. -/
theorem witness_ChangedByteOfAValidFrame :
    ValidFrame CrcAlg.arc fe1 ∧ 0x00 ≠ byteOf fe1 0 ∧ 12 < fe1.length ∧ 0xF6 ≠ byteOf fe1 12 ∧
    (byteOf fe1 4).toNat < (0x04 : Byte).toNat ∧ (byteOf fe1 4).toNat < (0xFF : Byte).toNat ∧
    (0x00 : Byte).toNat = 0 ∧ 0 < (0x01 : Byte).toNat ∧ (0x02 : Byte).toNat < (byteOf fe1 4).toNat ∧
    ValidFrame CrcAlg.arc [0x01, 0x00, 0x63, 0x00, 0x03, 0x00, 0x00, 0x0B, 0x00, 0x64, 0x66, 0x23, 0xC0] ∧
    crc16 CrcAlg.arc [0x01, 0x00, 0x63, 0x00, 0x01, 0x00, 0x00, 0x0B, 0x00] = 0x6664 := by
  unfold ValidFrame; decide
set_option maxRecDepth 100000 in
/-- V-D7's window, and the one with 0x73 and 0x7A at offsets 1 and 3, whose residue is zero as well. -/
theorem witness_ReservedBytesAreNotReported :
    ∃ w w' f, w ≠ w' ∧ (∀ i, i ∉ [1, 3, 5, 6] → w[i]? = w'[i]?) ∧
      decodeFrame Config.default w = .ok f ∧ decodeFrame Config.default w' = .ok f := by
  refine ⟨[0x63, 0x7F, 0x01, 0x7F, 0x02, 0x11, 0x22, 0x42, 0xAB, 0xCD, 0x71, 0xA0],
    [0x63, 0x73, 0x01, 0x7A, 0x02, 0x11, 0x22, 0x42, 0xAB, 0xCD, 0x71, 0xA0],
    { dst := 0x63, src := 0x01, len := 2, fcode := 0x42, ftag := .unknown, data := [0xAB, 0xCD], checksum := 0xA071 },
    by decide, ?_, by decide, by decide⟩
  intro i hi
  rcases Nat.lt_or_ge i 12 with h | h
  · interval_cases i <;> simp_all
  · rw [List.getElem?_eq_none (by simpa using h), List.getElem?_eq_none (by simpa using h)]
set_option maxRecDepth 100000 in
theorem witness_DecodeOfEncodedFrame :
    1 ≤ ([0x00] : List Byte).length ∧ (List.replicate 255 (0x00 : Byte)).length ≤ 255 ∧
    (FunSel.write, (0x0C : Byte), FTag.write) ∈ [(FunSel.reply, (0x06 : Byte), FTag.reply), (.read, 0x0B, .read),
      (.write, 0x0C, .write), (.error, 0x15, .error)] := by decide
set_option maxRecDepth 100000 in
/-- V-E6, alone and before F1 (V-S6). -/
theorem witness_EmptyPayloadFrameIsNeverAccepted : exec (.encode .read 0x01 []) State.reset =
    .next { State.reset with
      cmdBusy := false
      out := State.reset.out ++ [.response ⟨.ok, .bytes
        [0x01, 0x00, 0x63, 0x00, 0x00, 0x00, 0x00, 0x0B, 0x89, 0x98]⟩] } ∧
    (0xEE :: ([0x01, 0x00, 0x63, 0x00, 0x00, 0x00, 0x00, 0x0B, 0x89, 0x98] ++ f1)).drop 1 =
      ([0x01, 0x00, 0x63, 0x00, 0x00, 0x00, 0x00, 0x0B, 0x89, 0x98] : List Byte) ++ f1 := ⟨by rfl, by rfl⟩
set_option maxRecDepth 100000 in
/-- The smallest valid frame; ten bytes for the last clause. -/
theorem witness_FrameSizesAreBounded :
    ValidFrame CrcAlg.arc fmin ∧ fmin.length = 11 ∧ (List.replicate 10 (0x01 : Byte)).length = 10 := by
  unfold ValidFrame; decide
theorem witness_NextFrameAcceptance :
    (inState .idle [] []).syncState = .idle ∧ (inState .eos [] []).syncState = .eos ∧
    (inState .terr [] []).syncState = .terr ∧ (inState .ovf [] []).syncState = .ovf := by decide
/-- The three clauses, at ten and at eleven bytes. -/
theorem witness_CheckStepRule :
    (inState .check [] []).buf = [] ∧ ({ inState .check fmin [] with short := true }).short = true ∧
    (inState .check (fmin.take 10) []).buf ≠ [] ∧ (inState .check (fmin.take 10) []).short = false ∧
    (inState .check (fmin.take 10) []).buf.length < 11 ∧ 11 ≤ (inState .check fmin []).buf.length ∧
    (inState .check fmin []).short = false ∧ (inState .check fmin []).cmdBusy = true ∧
    takesReset (inState .check fmin []) = false := by decide
set_option maxRecDepth 100000 in
/-- A match at the last offset; a failure with one offset left; a failure at the last offset. -/
theorem witness_ScanStepRule :
    (inState .scan (0xEE :: fmin) []).cmdBusy = true ∧ takesReset (inState .scan (0xEE :: fmin) []) = false ∧
    decodeAt Config.default (0xEE :: fmin) 1 = .ok fminRecord ∧
    decodeAt Config.default (0xEE :: fmin) 0 = .error .lengthZero ∧ 0 + 11 < (0xEE :: fmin).length ∧
    decodeAt Config.default (fmin.set 9 0x00) 0 = .error .checksumInvalid ∧ 0 + 11 = (fmin.set 9 0x00).length := by
  decide
/-- Each answer, with BUF exactly at BUF_CAP afterwards, and one byte beyond it. -/
theorem witness_ReadAnswerRules :
    (inState .read [] [.answer 1 .error]).inputs =
      [.answer (inState .read [] [.answer 1 .error]).reads .error] ∧
    (inState .read [] [.answer 1 .error]).cmdBusy = true ∧
    1 ≤ ([0x11] : List Byte).length ∧ ([0x11] : List Byte).length ≤ 256 ∧
    (inState .read (List.replicate 15 0x00) []).buf.length + ([0x11] : List Byte).length ≤ 16 ∧
    16 < (inState .read (List.replicate 16 0x00) []).buf.length + ([0x11] : List Byte).length := by decide
theorem witness_ReadWaitsForTheTransport :
    (inState .read [] []).syncState = .read ∧ (inState .read [] []).inputs = [] := by decide
set_option maxRecDepth 100000 in
/-- An answer in IDLE; a chunk of READ_MAX + 1 bytes and one of READ_MAX. -/
theorem witness_UnsolicitedAnswerHasNoStep :
    ownStepReady (inState .idle [] [.answer 1 .fin]) = false ∧ Answer.size .fin ≤ 256 ∧
    1 ∉ (inState .idle [] [.answer 1 .fin]).abandoned ∧
    256 < Answer.size (.chunk (List.replicate 257 0x00)) ∧ Answer.size (.chunk (List.replicate 256 0x00)) ≤ 256 := by
  decide
/-- A step into READ, and one that does not go there. -/
theorem witness_OneReadOnEnteringRead :
    (∃ t, step (inState .check [] []) = .next t ∧ t.syncState = .read) ∧
    ∃ t, step (inState .check fmin []) = .next t ∧ t.syncState = .scan := ⟨⟨_, rfl, rfl⟩, ⟨_, rfl, rfl⟩⟩
theorem witness_ScanLimitLosesNoFrame : fmin.length < 1 + Config.default.minMessageSize := by decide
theorem witness_EndOfStreamLosesNoFrame :
    BlockInv (inState .read [0x01, 0x02, 0x03] [.answer 1 .fin]) ∧
    BlockInv (inState .read [0x01, 0x02, 0x03] [.answer 1 .error]) := ⟨blockInv_read.2.1, blockInv_read.2.2.1⟩
set_option maxRecDepth 100000 in
theorem witness_CompleteWindowIsSettled : 0 + Config.default.maxMessageSize ≤ (List.replicate 265 (0x00 : Byte)).length := by decide
set_option maxRecDepth 100000 in
theorem witness_LowestValidFrameIsReturned :
    BlockInv (inState .check (0xEE :: fmin) [.transfer 0x5000 []]) ∧
    undisturbed (inState .check (0xEE :: fmin) [.transfer 0x5000 []]) = true ∧
    (0xEE :: fmin) = [0xEE] ++ fmin ++ [] ∧ ValidFrame CrcAlg.arc fmin ∧
    ∀ k, k < ([0xEE] : List Byte).length → ¬ decodesAt (inState .check (0xEE :: fmin) [.transfer 0x5000 []]) k := by
  refine ⟨blockInv_busy.1, rfl, rfl, by unfold ValidFrame; decide, ?_⟩
  intro k hk ⟨f, hf⟩
  have h0 : k = 0 := by simpa using hk
  subst h0
  have he : decodeAt Config.default (0xEE :: fmin) 0 = .error .lengthZero := by decide
  rw [show (inState .check (0xEE :: fmin) [.transfer 0x5000 []]).cfg = Config.default from rfl] at hf
  rw [show (inState .check (0xEE :: fmin) [.transfer 0x5000 []]).buf = 0xEE :: fmin from rfl, he] at hf
  cases hf
theorem witness_StretchIsBounded : BlockInv (inState .check (0xEE :: fmin) [.transfer 0x5000 []]) ∧
    undisturbed (inState .check (0xEE :: fmin) [.transfer 0x5000 []]) = true := ⟨blockInv_busy.1, rfl⟩
/-- From IDLE with two answers, and from a terminal state. -/
theorem witness_StepsEqualTheSourceLoop :
    (inState .idle [0x42] [.transfer 0x8000 [], .answer 2 (.chunk f1), .answer 3 .fin]).inputs =
      .transfer 0x8000 [] :: numberedAnswers (1 + 1) [.chunk f1, .fin] ∧
    (∀ a, a ∈ [Answer.chunk f1, .fin] → Answer.size a ≤ Config.default.readMax) ∧
    SyncState.inFlight .idle = false ∧ SyncState.inFlight .terr = false := by decide
set_option maxRecDepth 100000 in
/-- Two minimum frames back to back, in two chunks that split the first. -/
theorem witness_ResynchronizesOnEverySplit :
    ValidFrame CrcAlg.arc fmin ∧ decodeFrame Config.default fmin = .ok fminRecord ∧
    (∀ k f, k ≠ 0 → k ≠ 11 → decodeAt Config.default (fmin ++ fmin) k ≠ .ok f) ∧
    [fmin.take 7, fmin.drop 7 ++ fmin].flatten = [] ++ fmin ++ [] ++ fmin ∧ fmin.take 7 ≠ [] ∧
    fmin.drop 7 ++ fmin ≠ [] := by
  refine ⟨by unfold ValidFrame; decide, by decide, ?_, by decide, by decide, by decide⟩
  intro k f h0 h11 hk
  rcases Nat.lt_or_ge k 12 with h | h
  · have hall : ∀ j : Fin 12, j.val ≠ 0 → j.val ≠ 11 →
        decodeAt Config.default (fmin ++ fmin) j.val = .error .lengthZero ∨
        decodeAt Config.default (fmin ++ fmin) j.val = .error .checksumInvalid ∨
        decodeAt Config.default (fmin ++ fmin) j.val = .error .frameTooShort := by decide
    rcases hall ⟨k, h⟩ h0 h11 with he | he | he <;> (rw [he] at hk; cases hk)
  · have he : decodeAt Config.default (fmin ++ fmin) k = .error .frameTooShort :=
      decodeFrame_short (by
        rw [List.length_drop]
        have h1 : (fmin ++ fmin).length = 22 := by decide
        have h2 : Config.default.minMessageSize = 11 := rfl
        omega)
    rw [he] at hk; cases hk
set_option maxRecDepth 100000 in
/-- A frame and a stream error. -/
theorem witness_DecodeErrorsStayInside :
    (∃ t, step (inState .scan fmin []) = .next t ∧ .response ⟨.ok, .frame fminRecord⟩ ∈ t.out ∧
      .response ⟨.ok, .frame fminRecord⟩ ∉ (inState .scan fmin []).out) ∧
    ∃ t, step (inState .read [] [.answer 1 .fin]) = .next t ∧ .response ⟨.endOfStream, .noValue⟩ ∈ t.out :=
  ⟨⟨_, rfl, by decide, by decide⟩, ⟨_, rfl, by decide⟩⟩
/-- The three clauses: a step that waits, a NEXT_FRAME, a reset. -/
theorem witness_TerminalStatesAreSticky :
    (inState .terr [0x42] []).syncState.terminal = true ∧ (inState .terr [0x42] []).cmdBusy = false ∧
    takesReset (inState .terr [0x42] []) = false ∧ (∃ t, step (inState .terr [0x42] []) = .next t) ∧
    (inState .ovf [] [.transfer 0x8000 []]).syncState.terminal = true ∧
    takesReset (inState .eos [] [.reset]) = true := ⟨rfl, rfl, rfl, ⟨_, rfl⟩, rfl, rfl⟩
theorem witness_ResetSetsEveryElement :
    (inState .scan fmin [.reset, .wait]).inputs = .reset :: [.wait] := by decide
set_option maxRecDepth 100000 in
theorem witness_AnswerToAbandonedReadIsDiscarded :
    BlockInv (inState .read [0x01, 0x02, 0x03] [.reset]) ∧
    BlockInv { inState .read [] [.answer 1 (.chunk [0x42])] with reads := 2, abandoned := [1] } ∧
    ownStepReady (inState .read [] []) = false ∧
    BlockInv { inState .idle [] [.answer 1 (.chunk [0x42])] with abandoned := [1] } ∧
    ownStepReady (inState .idle [] []) = false ∧ Answer.size (.chunk [0x42]) ≤ 256 :=
  ⟨blockInv_read.2.2.2, blockInv_abandoned.1, rfl, blockInv_abandoned.2, rfl, by decide⟩
set_option maxRecDepth 100000 in
/-- A chunk appended, a frame removed. -/
theorem witness_BufferChangesInTwoWays :
    (∃ t, step (inState .read [] [.answer 1 (.chunk f1)]) = .next t ∧ t.buf = f1) ∧
    (∃ t, step (inState .scan (fmin ++ [0x42]) []) = .next t ∧ t.buf = [0x42]) ∧
    takesReset (inState .read [] [.answer 1 (.chunk f1)]) = false :=
  ⟨⟨_, rfl, rfl⟩, ⟨_, rfl, by decide⟩, rfl⟩
theorem witness_RegistersHaveTheirWritersOnly :
    (∃ t, step (inState .idle [] [.transfer 0x4010 []]) = .next t ∧ t.localId ≠ 0x63) ∧
    (∃ t, step (inState .idle [] [.transfer 0x2001 []]) = .next t ∧ t.crcAcc ≠ 0x0000) ∧
    takesReset (inState .idle [] [.transfer 0x4010 []]) = false :=
  ⟨⟨_, rfl, by decide⟩, ⟨_, rfl, by decide⟩, rfl⟩
/-- Also the witness of SynchronizerInvariantsHold. -/
theorem witness_ConfigurationIsFixed :
    ∃ t, runSteps 3 (startedWith [.transfer 0x8000 [], .answer 1 .fin]) = .next t ∧ t.syncState = .eos :=
  ⟨_, rfl, rfl⟩
/-- A command that answers at once; NEXT_FRAME, which begins. -/
theorem witness_OneResponsePerTransfer :
    BlockInv (inState .idle [0x42] [.transfer 0x8000 []]) ∧
    (∃ t, step (inState .idle [0x42] [.transfer 0x8000 []]) = .next t) ∧
    takesReset (inState .idle [0x42] [.transfer 0x8000 []]) = false := ⟨blockInv_idle.1, ⟨_, rfl⟩, rfl⟩
/-- From CHECK, SCAN, READ, IDLE and EOS. -/
theorem witness_InvariantKeptByEveryStep :
    (BlockInv (inState .check (0xEE :: fmin) [.transfer 0x5000 []]) ∧
      ∃ t, step (inState .check (0xEE :: fmin) [.transfer 0x5000 []]) = .next t) ∧
    (BlockInv (inState .scan (0xEE :: fmin) [.transfer 0x5000 []]) ∧
      ∃ t, step (inState .scan (0xEE :: fmin) [.transfer 0x5000 []]) = .next t) ∧
    (BlockInv (inState .read [0x01, 0x02, 0x03] [.answer 1 .fin]) ∧
      ∃ t, step (inState .read [0x01, 0x02, 0x03] [.answer 1 .fin]) = .next t) ∧
    (BlockInv (inState .idle [0x42] [.transfer 0x8000 []]) ∧
      ∃ t, step (inState .idle [0x42] [.transfer 0x8000 []]) = .next t) ∧
    (BlockInv (inState .eos [0x42] []) ∧ ∃ t, step (inState .eos [0x42] []) = .next t) :=
  ⟨⟨blockInv_busy.1, ⟨_, rfl⟩⟩, ⟨blockInv_busy.2, ⟨_, rfl⟩⟩, ⟨blockInv_read.2.1, ⟨_, rfl⟩⟩,
    ⟨blockInv_idle.1, ⟨_, rfl⟩⟩, ⟨blockInv_idle.2, ⟨_, rfl⟩⟩⟩
/-- Duties kept, and broken. -/
theorem witness_StopsOnlyOnABrokenDuty :
    (BlockInv (inState .read [0x01, 0x02, 0x03] [.answer 1 .fin]) ∧
      DutiesKept (inState .read [0x01, 0x02, 0x03] [.answer 1 .fin])) ∧
    (BlockInv (inState .read [0x01, 0x02, 0x03] [.transfer 0x5000 []]) ∧
      ¬ DutiesKept (inState .read [0x01, 0x02, 0x03] [.transfer 0x5000 []])) :=
  ⟨⟨blockInv_read.2.1, .inr (.inr ⟨Nat.zero_le _, .inl ⟨rfl, rfl⟩⟩)⟩, blockInv_read.1, fun h => h rfl⟩

/-- READ, and a transport that answers every read with one zero byte. -/
def endlessZeros (cap : Option Nat) : State :=
  { inState .read [] [.stream (.cycle [.chunk [0x00]])] with cfg := { Config.default with bufCap := cap } }

theorem endlessZeros_chunks (n read : Nat) :
    AnswerSource.chunks 256 read n (.cycle [.chunk [0x00]]) = some (List.replicate n [0x00]) := by
  induction n generalizing read with
  | zero => rfl
  | succ n ih =>
    show (AnswerSource.chunks 256 (read + 1) n (.cycle [.chunk [0x00]])).map ([(0x00 : Byte)] :: ·) = _
    rw [ih]; rfl

/-- BUF holds zeros only, and no offset of zeros decodes. -/
theorem endlessZeros_garbage (cap : Option Nat) : EndlessGarbage (endlessZeros cap) (.cycle [.chunk [0x00]]) := by
  intro n
  refine ⟨_, endlessZeros_chunks n _, ?_, ?_⟩
  · intro c hc
    rw [List.eq_of_mem_replicate hc]
    exact (by decide : 1 ≤ 256)
  · intro k f hf
    rw [decodeAt, decodeFrame_ok_iff] at hf
    refine hf.2.1 ?_
    show byteOf ((List.replicate n [(0x00 : Byte)]).flatten.drop k) 4 = 0
    simp only [byteOf, List.getElem?_drop, List.flatten_replicate_singleton, List.getElem?_replicate]
    split <;> rfl

/-- Without a BUF_CAP and with one; a source that answers and a silent one. -/
theorem witness_TransportMayAnswerForEver :
    (BlockInv (endlessZeros none) ∧ EndlessGarbage (endlessZeros none) (.cycle [.chunk [0x00]])) ∧
    (BlockInv (endlessZeros (some 2)) ∧ EndlessGarbage (endlessZeros (some 2)) (.cycle [.chunk [0x00]])) ∧
    (endlessZeros none).syncState = .read ∧ (endlessZeros none).inputs = [.stream (.cycle [.chunk [0x00]])] ∧
    AnswerSource.next 256 1 (.cycle [.chunk [0x00]]) = some (.chunk [0x00], .cycle [.chunk [0x00]]) ∧
    AnswerSource.next 256 1 (.cycle []) = none :=
  ⟨⟨by apply blockInv_of <;> decide, endlessZeros_garbage _⟩,
    ⟨by apply blockInv_of <;> decide, endlessZeros_garbage _⟩, rfl, rfl, rfl, rfl⟩

end Sys2Proof.Tests
end

section
/-! SUPPORT. The statements of spec/10_state.md: what each operation leaves alone, the model's invariant and its
preservation, and the claims about all runs. -/

namespace Sys2Proof.Machine

/-! ### What each operation leaves alone -/

/-- CHECK decides by BUF and SHORT and touches neither BUF nor the registers (43 R152). -/
@[simp] theorem checkStep_frame (s : State) :
    (checkStep s).cfg = s.cfg ∧ (checkStep s).localId = s.localId ∧ (checkStep s).crcAcc = s.crcAcc ∧
    (checkStep s).buf = s.buf ∧ (checkStep s).inputs = s.inputs ∧ (checkStep s).abandoned = s.abandoned := by
  rcases checkStep_cases s with ⟨-, h⟩ | ⟨-, -, -, h⟩ | ⟨-, -, -, h⟩ <;> simp [h]

/-- An answer to the outstanding read touches BUF, SHORT, SYNC_STATE, CMD_BUSY and the response port only. -/
@[simp] theorem takeAnswer_frame (a : Answer) (s : State) :
    (takeAnswer a s).cfg = s.cfg ∧ (takeAnswer a s).localId = s.localId ∧ (takeAnswer a s).crcAcc = s.crcAcc ∧
    (takeAnswer a s).cur = s.cur ∧ (takeAnswer a s).inputs = s.inputs ∧ (takeAnswer a s).reads = s.reads ∧
    (takeAnswer a s).abandoned = s.abandoned := by
  rcases takeAnswer_cases a s with ⟨y, e, -, h⟩ | ⟨c, -, -, -, h⟩ <;> simp [h]

/-- The block's own step changes no configuration, writes neither register and takes no input. -/
theorem blockStep_frame {s t : State} (h : blockStep s = .next t) :
    t.cfg = s.cfg ∧ t.localId = s.localId ∧ t.crcAcc = s.crcAcc ∧ t.inputs = s.inputs := by
  rcases blockStep_cases h with ⟨-, rfl⟩ | ⟨-, -, rfl⟩ | ⟨-, -, f, -, rfl⟩ | ⟨-, -, -, -, rfl⟩ | ⟨-, -, -, -, rfl⟩ <;>
    simp

/-- LOCAL_ID has one writer among the commands (10 R21). -/
theorem registersAfter_localId {i : Instr} (h : ∀ b, i ≠ .setId b) (s : State) :
    (registersAfter i s).localId = s.localId := by
  cases i with
  | setId b => exact absurd rfl (h b)
  | _ => rfl

/-- CRC_ACC has two writers among the commands (10 R22). -/
theorem registersAfter_crcAcc {i : Instr} (hi : i ≠ .crcInit) (hu : ∀ b, i ≠ .crcUpdate b) (s : State) :
    (registersAfter i s).crcAcc = s.crcAcc := by
  cases i with
  | crcInit => exact absurd rfl hi
  | crcUpdate b => exact absurd rfl (hu b)
  | _ => rfl

/-- What no command touches. -/
theorem exec_frame {i : Instr} {s t : State} (h : exec i s = .next t) :
    t.cfg = s.cfg ∧ t.cur = s.cur ∧ t.buf = s.buf ∧ t.short = s.short ∧ t.inputs = s.inputs ∧
    t.reads = s.reads ∧ t.abandoned = s.abandoned := by
  rcases exec_cases h with ⟨-, -, rfl⟩ | ⟨st, v, rfl⟩ <;> simp

/-- Every command but SET_ID keeps LOCAL_ID. -/
theorem exec_localId {i : Instr} {s t : State} (h : exec i s = .next t) (hi : ∀ b, i ≠ .setId b) :
    t.localId = s.localId := by
  rcases exec_cases h with ⟨-, -, rfl⟩ | ⟨st, v, rfl⟩
  · rfl
  · exact registersAfter_localId hi s

/-- Every command but CRC_INIT and CRC_UPDATE keeps CRC_ACC. -/
theorem exec_crcAcc {i : Instr} {s t : State} (h : exec i s = .next t) (hi : i ≠ .crcInit)
    (hu : ∀ b, i ≠ .crcUpdate b) : t.crcAcc = s.crcAcc := by
  rcases exec_cases h with ⟨-, -, rfl⟩ | ⟨st, v, rfl⟩
  · rfl
  · exact registersAfter_crcAcc hi hu s

/-- Every command but NEXT_FRAME keeps SYNC_STATE and is answered at once. -/
theorem exec_syncState {i : Instr} {s t : State} (h : exec i s = .next t) (hi : i ≠ .nextFrame) :
    t.syncState = s.syncState ∧ t.cmdBusy = false := by
  rcases exec_cases h with ⟨hn, -⟩ | ⟨st, v, rfl⟩
  · exact absurd hn hi
  · simp

/-- Settles O10, from what each command's registers and response are. -/
theorem commandsKeepTheRestOfTheState : Obligations.CommandsKeepTheRestOfTheState := by
  intro i s t h
  obtain ⟨hcfg, hcur, hbuf, hshort, hinputs, hreads, habandoned⟩ := exec_frame h
  exact ⟨hcfg, hcur, fun k => by rw [hbuf], hshort, hinputs, hreads, habandoned, exec_localId h, exec_crcAcc h,
    exec_syncState h⟩

/-! ### What a step leaves alone -/

/-- No step changes the configuration (10 R32). -/
theorem step_cfg {s t : State} (h : step s = .next t) : t.cfg = s.cfg := by
  rcases step_cases h with ⟨rest, -, rfl⟩ | ⟨-, l, -, hb⟩ | ⟨w, p, rest, e, -, -, -, rfl⟩ |
    ⟨w, p, rest, i, -, -, -, he⟩ | ⟨a, l, -, -, -, -, rfl⟩ | ⟨n, a, rest, -, -, -, rfl⟩
  case inr.inl => exact (blockStep_frame hb).1
  case inr.inr.inr.inl => exact (exec_frame he).1
  all_goals simp

/-- A step but a reset keeps both registers, unless it accepts a legal command that writes one. -/
theorem step_registers {s t : State} (h : step s = .next t) (hr : takesReset s = false) :
    (t.localId = s.localId ∧ t.crcAcc = s.crcAcc) ∨
    ∃ i, acceptedInstr s = some i ∧ ((∀ b, i ≠ .setId b) → t.localId = s.localId) ∧
      (i ≠ .crcInit → (∀ b, i ≠ .crcUpdate b) → t.crcAcc = s.crcAcc) := by
  rcases step_cases h with ⟨rest, hi, -⟩ | ⟨-, l, -, hb⟩ | ⟨w, p, rest, e, -, -, -, rfl⟩ |
    ⟨w, p, rest, i, hi, hb, hd, he⟩ | ⟨a, l, -, -, -, -, rfl⟩ | ⟨n, a, rest, -, -, -, rfl⟩
  case inl => simp [takesReset, hi] at hr
  case inr.inl =>
    obtain ⟨-, hid, hcrc, -⟩ := blockStep_frame hb
    exact .inl ⟨hid, hcrc⟩
  case inr.inr.inr.inl => exact .inr ⟨i, by simp [acceptedInstr, hi, hb, hd], (exec_localId he :), (exec_crcAcc he :)⟩
  all_goals simp

/-- Settles O53: what writes a register is a command that the step accepts. -/
theorem registersHaveTheirWritersOnly : Obligations.RegistersHaveTheirWritersOnly := by
  intro s t h hr
  rcases step_registers h hr with ⟨hid, hcrc⟩ | ⟨i, hacc, hid, hcrc⟩
  · exact ⟨absurd hid, absurd hcrc⟩
  · constructor
    · intro hne
      by_contra hno
      exact hne (hid fun b hb => hno ⟨b, hb ▸ hacc⟩)
    · intro hne
      by_contra hno
      exact hne (hcrc (fun hi => hno (.inl (hi ▸ hacc))) fun b hb => hno (.inr ⟨b, hb ▸ hacc⟩))

/-- What the block's own step does to BUF: nothing, or it removes the bytes up to the end of the frame it returns
(43 R159). -/
theorem blockStep_buf {s t : State} (h : blockStep s = .next t) :
    t.buf = s.buf ∨ (s.syncState = .scan ∧ ∃ f, decodeAt s.cfg s.buf s.cur = .ok f ∧ t = scanMatch f s) := by
  rcases blockStep_cases h with ⟨-, rfl⟩ | ⟨-, -, rfl⟩ | ⟨-, hs, hf⟩ | ⟨-, -, -, -, rfl⟩ | ⟨-, -, -, -, rfl⟩
  case inr.inr.inl => exact .inr ⟨hs, hf⟩
  all_goals simp

/-- What an answer does to BUF: nothing, or it appends its non-empty chunk and clears SHORT (43 R155). -/
theorem takeAnswer_buf (a : Answer) (s : State) :
    (takeAnswer a s).buf = s.buf ∨
    ∃ c, c ≠ [] ∧ (takeAnswer a s).buf = s.buf ++ c ∧ (takeAnswer a s).short = false := by
  rcases takeAnswer_cases a s with ⟨y, e, -, h⟩ | ⟨c, -, hc, -, h⟩
  · exact .inl (by simp [h])
  · exact .inr ⟨c, hc, by simp [h]⟩

/-- Settles O52: BUF grows by an answer and shrinks by a match only. -/
theorem bufferChangesInTwoWays : Obligations.BufferChangesInTwoWays := by
  intro s t h hr
  rcases step_cases h with ⟨rest, hi, -⟩ | ⟨-, l, -, hb⟩ | ⟨w, p, rest, e, -, -, -, rfl⟩ |
    ⟨w, p, rest, i, -, -, -, he⟩ | ⟨a, l, -, -, hs, -, rfl⟩ | ⟨n, a, rest, -, -, -, rfl⟩
  · simp [takesReset, hi] at hr
  · rcases blockStep_buf hb with hbuf | ⟨hs, f, hf, rfl⟩
    · exact .inl hbuf
    · exact .inr (.inr ⟨hs, f, _, hf, rfl, by simp [frameSize, Nat.add_assoc], by simp⟩)
  · exact .inl rfl
  · obtain ⟨-, -, hbuf, -⟩ := exec_frame he
    exact .inl hbuf
  · rcases takeAnswer_buf a { s with inputs := l } with hbuf | hchunk
    · exact .inl hbuf
    · exact .inr (.inl ⟨hs, hchunk⟩)
  · exact .inl rfl

/-! ### Runs -/

/-- What every step keeps, every run keeps. -/
theorem runSteps_keeps {P : State → Prop} (hP : ∀ s t, P s → step s = .next t → P t) {n : Nat} {s t : State}
    (h : runSteps n s = .next t) (hs : P s) : P t := by
  induction n generalizing s with
  | zero => cases h; exact hs
  | succ n ih =>
    cases hu : step s with
    | next u => exact ih (by rwa [runSteps_succ hu] at h) (hP s u hs hu)
    | fault r => simp [runSteps, hu] at h
    | refused r => simp [runSteps, hu] at h

/-- Settles O54: no step changes the configuration, so no run does. -/
theorem configurationIsFixed : Obligations.ConfigurationIsFixed := by
  intro s n t h
  exact runSteps_keeps (P := fun u => u.cfg = s.cfg) (fun u v hu huv => (step_cfg huv).trans hu) h rfl

/-! ### Frames in BUF -/

/-- A frame that decodes lies inside BUF, its MIN_MESSAGE_SIZE bytes behind its offset. -/
theorem decodesAt_inRange {s : State} (hc : s.cfg.Specified) {k : Nat} (h : decodesAt s k) :
    k + s.cfg.minMessageSize ≤ s.buf.length := by
  obtain ⟨f, hf⟩ := h
  obtain ⟨hlen, -⟩ := decodeFrame_ok_iff.1 hf
  rw [List.length_drop] at hlen
  have hmin : s.cfg.minMessageSize = 11 := hc.1
  omega

/-- Whether BUF holds a frame is a matter of the configuration and BUF. -/
theorem noFrame_congr {s t : State} (hcfg : t.cfg = s.cfg) (hbuf : t.buf = s.buf) (h : NoFrame s) : NoFrame t := by
  intro k
  rw [decodesAt, hcfg, hbuf]
  exact h k

/-- Fewer bytes than MIN_MESSAGE_SIZE hold no frame. -/
theorem noFrame_of_short {s : State} (hc : s.cfg.Specified) (h : s.buf.length < s.cfg.minMessageSize) :
    NoFrame s := by
  intro k hk
  have := decodesAt_inRange hc hk
  omega

/-- After the last offset of the scan has failed, every offset has (43 R161): those below were tried, those above have
too few bytes. -/
theorem noFrame_of_scanned {s : State} (hc : s.cfg.Specified) (hbelow : ∀ k, k < s.cur → ¬ decodesAt s k)
    (hcur : ¬ decodesAt s s.cur) (hend : s.cur + s.cfg.minMessageSize = s.buf.length) : NoFrame s := by
  intro k hk
  rcases Nat.lt_trichotomy k s.cur with hlt | rfl | hgt
  · exact hbelow k hlt hk
  · exact hcur hk
  · have := decodesAt_inRange hc hk
    omega

/-- An offset at which Decode answers an error has no frame. -/
theorem not_decodesAt_of_error {s : State} {k : Nat} {e : DecodeError} (h : decodeAt s.cfg s.buf k = .error e) :
    ¬ decodesAt s k := by
  rintro ⟨f, hf⟩
  rw [h] at hf
  cases hf

/-! ### The model's invariant -/

/-- The invariant outside SCAN: CUR is 0, and BUF holds no frame while SHORT is 1 or a read is outstanding. -/
theorem blockInv_outsideScan {t : State} (hc : t.cfg.Specified) (hb : t.cmdBusy = t.syncState.inFlight)
    (hs : t.syncState ≠ .scan) (h0 : t.cur = 0) (hshort : t.short = true → NoFrame t)
    (hread : t.syncState = .read → NoFrame t ∧ 1 ≤ t.reads ∧ t.reads ∉ t.abandoned)
    (hm : Memory.wf t.cfg.bufCap t.buf = true) (ha : ∀ n, n ∈ t.abandoned → 1 ≤ n ∧ n ≤ t.reads)
    (hd : t.abandoned.Nodup) : BlockInv t where
  config := hc
  sync :=
    { a := fun h => absurd h hs
      b := fun h _ k _ => (hread h).1 k
      c := fun _ => hshort
      d := hshort
      e := fun h => by rw [hb, h]; rfl }
  busy := hb
  cursor h := absurd h hs
  cursorHome _ := h0
  scanned h := absurd h hs
  memory := hm
  abandonedIssued := ha
  abandonedOnce := hd
  outstanding h := (hread h).2

/-- The invariant in SCAN: SHORT is 0, CUR is in range and the offsets below it have failed. -/
theorem blockInv_inScan {t : State} (hc : t.cfg.Specified) (hb : t.cmdBusy = true) (hs : t.syncState = .scan)
    (hshort : t.short = false) (hcur : t.cur + t.cfg.minMessageSize ≤ t.buf.length)
    (hbelow : ∀ k, k < t.cur → ¬ decodesAt t k) (hm : Memory.wf t.cfg.bufCap t.buf = true)
    (ha : ∀ n, n ∈ t.abandoned → 1 ≤ n ∧ n ≤ t.reads) (hd : t.abandoned.Nodup) : BlockInv t where
  config := hc
  sync :=
    { a := fun _ => ⟨hshort, by omega⟩
      b := fun h => by simp [hs] at h
      c := fun h => by simp [hs] at h
      d := fun h => by simp [hshort] at h
      e := fun h => by simp [hs] at h }
  busy := by rw [hb, hs]; rfl
  cursor _ := hcur
  cursorHome h := absurd hs h
  scanned _ := hbelow
  memory := hm
  abandonedIssued := ha
  abandonedOnce := hd
  outstanding h := by simp [hs] at h

/-- Power-on, in any specified configuration and any environment (70 R230). -/
theorem blockInv_powerOn {cfg : Config} (hc : cfg.Specified) (inputs : List Input) :
    BlockInv { startedWith inputs with cfg := cfg } :=
  blockInv_outsideScan hc rfl (by simp [startedWith, State.reset]) rfl (by simp [startedWith, State.reset])
    (by simp [startedWith, State.reset]) (Memory.wf_reset _) (by simp [startedWith, State.reset]) List.nodup_nil

/-- Settles O56: the reset state is power-on in the default configuration. -/
theorem invariantHoldsAtReset : Obligations.InvariantHoldsAtReset :=
  blockInv_powerOn (cfg := Config.default) (by decide) []

/-- The invariant does not speak of what is next at the ports. -/
theorem blockInv_withInputs {s : State} (h : BlockInv s) (l : List Input) : BlockInv { s with inputs := l } :=
  { h with sync := { h.sync with } }

/-- The invariant does not speak of the registers that the commands write. -/
theorem blockInv_registersAfter {s : State} (h : BlockInv s) (i : Instr) : BlockInv (registersAfter i s) := by
  cases i with
  | crcInit | crcUpdate | setId => exact { h with sync := { h.sync with } }
  | _ => exact h

/-- A command that is answered at once leaves CMD_BUSY as it was, 0. -/
theorem blockInv_respond {s : State} (h : BlockInv s) (hb : s.cmdBusy = false) (st : Status) (v : Value) :
    BlockInv (respond st v s) :=
  { h with sync := { h.sync with e := fun _ => rfl }, busy := hb.symm.trans h.busy }

/-- With no command in flight the block is not in SCAN. -/
theorem syncState_ne_scan {s : State} (h : BlockInv s) (hb : s.cmdBusy = false) : s.syncState ≠ .scan := by
  intro hs
  have hbusy := h.busy
  rw [hb, hs] at hbusy
  cases hbusy

/-- A command keeps the invariant at a ready port: NEXT_FRAME's CHECK begins with CUR = 0, the others are answered. -/
theorem blockInv_exec {i : Instr} {s t : State} (h : BlockInv s) (hb : s.cmdBusy = false)
    (he : exec i s = .next t) : BlockInv t := by
  rcases exec_cases he with ⟨-, hs, rfl⟩ | ⟨st, v, rfl⟩
  · exact blockInv_outsideScan h.config rfl (by simp) (h.cursorHome (by simp [hs]))
      (fun hshort => noFrame_congr rfl rfl (h.sync.d hshort)) (by simp) h.memory h.abandonedIssued h.abandonedOnce
  · exact blockInv_respond (blockInv_registersAfter h i) (by simp [hb]) st v

/-- The abandoned reads stay in order when the outstanding read joins them (70 R231). -/
theorem abandonedByReset_inOrder {s : State} (h : BlockInv s) :
    (∀ n, n ∈ abandonedByReset s → 1 ≤ n ∧ n ≤ s.reads) ∧ (abandonedByReset s).Nodup := by
  unfold abandonedByReset
  split
  · rename_i hread
    simp only [Bool.and_eq_true, beq_iff_eq] at hread
    obtain ⟨hissued, hnew⟩ := h.outstanding hread.2
    constructor
    · intro n hn
      rcases List.mem_append.1 hn with hold | hlast
      · exact h.abandonedIssued n hold
      · rw [List.mem_singleton.1 hlast]
        exact ⟨hissued, Nat.le_refl _⟩
    · exact h.abandonedOnce.append (List.nodup_singleton _) (List.disjoint_singleton.2 hnew)
  · exact ⟨h.abandonedIssued, h.abandonedOnce⟩

theorem blockInv_resetEvent {s : State} (h : BlockInv s) : BlockInv (resetEvent s) := by
  obtain ⟨hissued, honce⟩ := abandonedByReset_inOrder h
  exact blockInv_outsideScan h.config rfl (by simp) rfl (by simp) (by simp) (Memory.wf_reset _) hissued honce

/-- Entering READ (43 R153): the new read's number is above every abandoned one. -/
theorem blockInv_startRead {s : State} (h : BlockInv s) (hb : s.cmdBusy = true) (h0 : s.cur = 0)
    (hno : NoFrame s) : BlockInv (startRead s) := by
  have habandoned : ∀ n, n ∈ s.abandoned → 1 ≤ n ∧ n ≤ s.reads + 1 := fun n hn => by
    have := h.abandonedIssued n hn
    omega
  have hnew : s.reads + 1 ∉ s.abandoned := fun hn => by
    have := h.abandonedIssued _ hn
    omega
  have hnoFrame : NoFrame (startRead s) := noFrame_congr rfl rfl hno
  exact blockInv_outsideScan h.config hb (by simp) h0 (fun _ => hnoFrame)
    (fun _ => ⟨hnoFrame, by simp, hnew⟩) h.memory habandoned h.abandonedOnce

/-- SHORT may be set while BUF holds no frame. -/
theorem blockInv_setShort {s : State} (h : BlockInv s) (hs : s.syncState ≠ .scan) (hno : NoFrame s) :
    BlockInv (setShort s) :=
  blockInv_outsideScan h.config h.busy hs (h.cursorHome hs) (fun _ => noFrame_congr rfl rfl hno)
    (fun hread => ⟨noFrame_congr rfl rfl hno, h.outstanding hread⟩) h.memory h.abandonedIssued h.abandonedOnce

/-- CHECK reads only when BUF holds no frame (43 R152). -/
theorem blockInv_checkStep {s : State} (h : BlockInv s) (hb : s.cmdBusy = true) (hs : s.syncState = .check) :
    BlockInv (checkStep s) := by
  have hns : s.syncState ≠ .scan := by simp [hs]
  have h0 : s.cur = 0 := h.cursorHome hns
  rcases checkStep_cases s with ⟨hread, heq⟩ | ⟨-, -, hlen, heq⟩ | ⟨-, hshort, hlen, heq⟩
  · rw [heq]
    refine blockInv_startRead h hb h0 ?_
    rcases hread with hempty | hshort
    · exact noFrame_of_short h.config (by simp [hempty, h.config.1])
    · exact h.sync.d hshort
  · rw [heq]
    have hno : NoFrame s := noFrame_of_short h.config hlen
    exact blockInv_startRead (blockInv_setShort h hns hno) hb h0 (noFrame_congr rfl rfl hno)
  · rw [heq]
    exact blockInv_inScan h.config hb rfl hshort (by simpa using hlen) (by simp) h.memory h.abandonedIssued
      h.abandonedOnce

/-- A match ends SCAN with SHORT = 0, so what is left of BUF may hold a frame (43 R159). -/
theorem blockInv_scanMatch {s : State} (h : BlockInv s) (hs : s.syncState = .scan) (f : Frame) :
    BlockInv (scanMatch f s) := by
  obtain ⟨hshort, -⟩ := h.sync.a hs
  exact blockInv_outsideScan h.config rfl (by simp) rfl (by simp [hshort]) (by simp) (Memory.wf_consume _ h.memory)
    h.abandonedIssued h.abandonedOnce

/-- A failed offset that is not the last joins those already tried (43 R160). -/
theorem blockInv_scanNext {s : State} (h : BlockInv s) (hb : s.cmdBusy = true) (hs : s.syncState = .scan)
    (hcur : ¬ decodesAt s s.cur) (hlt : s.cur + s.cfg.minMessageSize < s.buf.length) :
    BlockInv { s with cur := s.cur + 1 } := by
  obtain ⟨hshort, -⟩ := h.sync.a hs
  have htried : ∀ k, k < s.cur + 1 → ¬ decodesAt s k := by
    intro k hk
    rcases Nat.lt_succ_iff_lt_or_eq.1 hk with hbelow | rfl
    · exact h.scanned hs k hbelow
    · exact hcur
  exact blockInv_inScan h.config hb hs hshort (by simp only; omega) htried h.memory h.abandonedIssued h.abandonedOnce

/-- The last offset's failure sets SHORT, when every offset has failed (43 R161). -/
theorem blockInv_scanEnd {s : State} (h : BlockInv s) (hb : s.cmdBusy = true) (hs : s.syncState = .scan)
    (hcur : ¬ decodesAt s s.cur) (hend : s.cur + s.cfg.minMessageSize = s.buf.length) :
    BlockInv (setShort { s with cur := 0, syncState := .check }) := by
  have hno : NoFrame s := noFrame_of_scanned h.config (h.scanned hs) hcur hend
  exact blockInv_outsideScan h.config hb (by simp) rfl (fun _ => noFrame_congr rfl rfl hno) (by simp) h.memory
    h.abandonedIssued h.abandonedOnce

theorem blockInv_blockStep {s t : State} (h : BlockInv s) (hst : blockStep s = .next t) : BlockInv t := by
  rcases blockStep_cases hst with ⟨-, rfl⟩ | ⟨hb, hs, rfl⟩ | ⟨-, hs, f, -, rfl⟩ | ⟨hb, hs, ⟨e, he⟩, hlt, rfl⟩ |
    ⟨hb, hs, ⟨e, he⟩, hend, rfl⟩
  · exact h
  · exact blockInv_checkStep h hb hs
  · exact blockInv_scanMatch h hs f
  · exact blockInv_scanNext h hb hs (not_decodesAt_of_error he) hlt
  · exact blockInv_scanEnd h hb hs (not_decodesAt_of_error he) hend

/-- No NEXT_FRAME is in flight in a terminal state (10 R24). -/
theorem notInFlight_of_terminal {y : SyncState} (hy : y.terminal = true) :
    false = y.inFlight ∧ y ≠ .scan ∧ y ≠ .read := by
  revert hy
  cases y <;> decide

/-- Every way to a stream error is to a terminal state, with BUF and SHORT unchanged (43 R154, R156, R158). -/
theorem blockInv_endStream {s : State} (h : BlockInv s) (hs : s.syncState ≠ .scan) {y : SyncState}
    (hy : y.terminal = true) (e : Status) : BlockInv (endStream y e s) := by
  have hshort : (endStream y e s).short = true → NoFrame (endStream y e s) :=
    fun hsh => noFrame_congr rfl rfl (h.sync.d hsh)
  obtain ⟨hflight, hscan, hread⟩ := notInFlight_of_terminal hy
  exact blockInv_outsideScan h.config hflight hscan (h.cursorHome hs) hshort (fun hr => absurd hr hread) h.memory
    h.abandonedIssued h.abandonedOnce

/-- An answer in READ ends the stream, or appends a chunk that fits, clears SHORT and goes back to CHECK. -/
theorem blockInv_takeAnswer {s : State} (h : BlockInv s) (hb : s.cmdBusy = true) (hs : s.syncState = .read)
    (a : Answer) : BlockInv (takeAnswer a s) := by
  have hns : s.syncState ≠ .scan := by simp [hs]
  rcases takeAnswer_cases a s with ⟨y, e, hmem, heq⟩ | ⟨c, -, -, hfits, heq⟩
  · rw [heq]
    refine blockInv_endStream h hns ?_ e
    simp only [List.mem_cons, Prod.mk.injEq, List.not_mem_nil, or_false] at hmem
    rcases hmem with ⟨rfl, -⟩ | ⟨rfl, -⟩ | ⟨rfl, -⟩ <;> rfl
  · rw [heq]
    exact blockInv_outsideScan h.config hb (by simp) (h.cursorHome hns) (by simp) (by simp) (Memory.wf_extend hfits)
      h.abandonedIssued h.abandonedOnce

/-- An answered read is no longer awaited. -/
theorem blockInv_eraseAbandoned {s : State} (h : BlockInv s) (n : Nat) :
    BlockInv { s with abandoned := s.abandoned.erase n } :=
  { h with
    sync := { h.sync with }
    abandonedIssued := fun m hm => h.abandonedIssued m (List.mem_of_mem_erase hm)
    abandonedOnce := h.abandonedOnce.erase n
    outstanding := fun hs => ⟨(h.outstanding hs).1, fun hm => (h.outstanding hs).2 (List.mem_of_mem_erase hm)⟩ }

/-- Settles O57: each kind of step keeps the invariant. -/
theorem invariantKeptByEveryStep : Obligations.InvariantKeptByEveryStep := by
  intro s t h hst
  rcases step_cases hst with ⟨rest, -, rfl⟩ | ⟨-, l, -, hblock⟩ | ⟨w, p, rest, e, -, hb, -, rfl⟩ |
    ⟨w, p, rest, i, -, hb, -, he⟩ | ⟨a, l, -, hb, hs, -, rfl⟩ | ⟨n, a, rest, -, -, -, rfl⟩
  · exact blockInv_resetEvent (blockInv_withInputs h rest)
  · exact blockInv_blockStep (blockInv_withInputs h l) hblock
  · exact blockInv_respond (blockInv_withInputs h rest) hb .illegalCommand .noValue
  · exact blockInv_exec (blockInv_withInputs h rest) hb he
  · exact blockInv_takeAnswer (blockInv_withInputs h l) hb hs a
  · exact blockInv_eraseAbandoned (blockInv_withInputs h rest) n

/-- Settles O58: the invariant holds at power-on and every step keeps it. -/
theorem synchronizerInvariantsHold : Obligations.SynchronizerInvariantsHold := by
  intro cfg inputs n t hc h
  exact (runSteps_keeps invariantKeptByEveryStep h (blockInv_powerOn hc inputs)).sync

/-! ### A transfer that waits -/

/-- What a step does with a transfer next (30 R60, 20 R46). -/
theorem step_of_transfer {s : State} {w : U16} {p : List Byte} {rest : List Input}
    (hi : s.inputs = .transfer w p :: rest) :
    step s = if ownStepReady s then blockStep s else if s.cmdBusy then .refused .transferWhileBusy
      else acceptTransfer w p { s with inputs := rest } := by
  rw [step, hi]

/-- Under the invariant the block's own step never faults: CUR is in range while SCAN (10 R25). -/
theorem blockStep_goesOn {s : State} (h : BlockInv s) : ∃ t, blockStep s = .next t := by
  unfold blockStep
  split
  · split
    · exact ⟨_, rfl⟩
    · rename_i hs
      have hcur := h.cursor hs
      unfold scanStep
      split
      · exact ⟨_, rfl⟩
      · split
        · exact ⟨_, rfl⟩
        · rw [if_pos (by omega)]
          exact ⟨_, rfl⟩
    · exact ⟨_, rfl⟩
  · exact ⟨_, rfl⟩

/-- A NEXT_FRAME in flight that waits for no answer has a step of its own (10 R24, R28). -/
theorem ownStepReady_of_busy {s : State} (h : BlockInv s) (hb : s.cmdBusy = true) (hs : s.syncState ≠ .read) :
    ownStepReady s = true := by
  have hflight : s.syncState.inFlight = true := h.busy ▸ hb
  unfold ownStepReady
  rw [hb]
  cases hy : s.syncState <;> simp_all [SyncState.inFlight]

/-- Settles O9: in READ the step is the refusal; in CHECK and SCAN it is the block's own, which takes no input. -/
theorem busyPortTakesNoTransfer : Obligations.BusyPortTakesNoTransfer := by
  intro s w p rest h hi hb
  rw [step_of_transfer hi]
  constructor
  · intro hs
    simp [ownStepReady, hb, hs]
  · intro hs
    obtain ⟨t, ht⟩ := blockStep_goesOn h
    obtain ⟨-, hid, hcrc, hinputs⟩ := blockStep_frame ht
    exact ⟨t, by rw [if_pos (ownStepReady_of_busy h hb hs), ht], hinputs, hid, hcrc⟩

end Sys2Proof.Machine
end

section
/-! SUPPORT. The statement of spec/20_memory.md: a valid frame is accepted whatever follows it, and the block's own
steps from CHECK over the garbage to the frame. -/

namespace Sys2Proof.Machine

/-! ### A window with bytes behind it -/

/-- The record is read from the frame's own bytes, so bytes behind them do not change it (42 R138). -/
theorem frameOf_append {cfg : Config} (hc : cfg.Specified) {w : List Byte}
    (hlen : (byteOf w 4).toNat + 10 ≤ w.length) (x : List Byte) : frameOf cfg (w ++ x) = frameOf cfg w := by
  have hbyte : ∀ i, i < (byteOf w 4).toNat + 10 → byteOf (w ++ x) i = byteOf w i :=
    fun i hi => byteOf_append_left x (Nat.lt_of_lt_of_le hi hlen)
  have hdata : ((w ++ x).drop 8).take (byteOf w 4).toNat = (w.drop 8).take (byteOf w 4).toNat := by
    rw [List.drop_append_of_le_length (by omega), List.take_append_of_le_length (by rw [List.length_drop]; omega)]
  rw [frameOf_specified hc, frameOf_specified hc, hbyte 4 (by omega), hdata, hbyte 0 (by omega), hbyte 2 (by omega),
    hbyte 7 (by omega), hbyte (8 + _) (by omega), hbyte (9 + _) (by omega)]

/-- A window that is accepted is accepted with the same record whatever follows it (42 R138). -/
theorem decodeFrame_append {cfg : Config} (hc : cfg.Specified) {w : List Byte} {f : Frame}
    (h : decodeFrame cfg w = .ok f) (x : List Byte) : decodeFrame cfg (w ++ x) = .ok f := by
  obtain ⟨hmin, hzero, hlen, hcrc, rfl⟩ := (decodeFrame_ok_iff_specified hc).1 h
  rw [decodeFrame_ok_iff_specified hc, byteOf_append_left x (by omega), List.take_append_of_le_length hlen,
    frameOf_append hc hlen x, List.length_append]
  exact ⟨by omega, hzero, by omega, hcrc, rfl⟩

/-- Decode answers the record of a valid frame (30 R62). -/
theorem decodeFrame_of_validFrame {cfg : Config} (hc : cfg.Specified) {w : List Byte}
    (hw : ValidFrame cfg.crcAlg w) : decodeFrame cfg w = .ok (frameOf cfg w) := by
  obtain ⟨hlen, hpos, hcrc⟩ := hw
  have hzero : byteOf w 4 ≠ 0 := fun h => by simp [h] at hpos
  have htake : w.take ((byteOf w 4).toNat + 10) = w := List.take_of_length_le (Nat.le_of_eq hlen)
  rw [decodeFrame_ok_iff_specified hc, htake]
  exact ⟨by omega, hzero, Nat.le_of_eq hlen.symm, hcrc, rfl⟩

/-- A valid frame is as long as its record's length byte says (30 R61). -/
theorem frameSize_of_validFrame {cfg : Config} (hc : cfg.Specified) {w : List Byte}
    (hw : ValidFrame cfg.crcAlg w) : frameSize cfg.offsets (frameOf cfg w).len = w.length := by
  rw [frameOf_specified hc, frameSize_specified hc]
  exact hw.1.symm

/-! ### The block's own steps -/

/-- With no reset and no pause next, the block takes its own step before any input (20 R46). -/
theorem step_of_ownStepReady {s : State} (hr : ownStepReady s = true) (hu : undisturbed s = true) :
    step s = blockStep s := by
  unfold step
  unfold undisturbed at hu
  cases hi : s.inputs with
  | nil => rfl
  | cons i rest =>
    cases i with
    | reset | wait => simp [hi] at hu
    | transfer | answer | stream => simp only [hr, if_true]

/-- The block in SCAN, about to try offset `k`. -/
def scanningAt (k : Nat) (s : State) : State := { s with cur := k, syncState := .scan }

/-- In CHECK with SHORT = 0 and MIN_MESSAGE_SIZE bytes in BUF, a step begins the scan at offset 0 (43 R152). -/
theorem step_check_toScan {s : State} (hc : s.cfg.Specified) (hb : s.cmdBusy = true) (hs : s.syncState = .check)
    (hu : undisturbed s = true) (hshort : s.short = false) (hlen : s.cfg.minMessageSize ≤ s.buf.length) :
    step s = .next (scanningAt 0 s) := by
  have hne : s.buf ≠ [] := fun hnil => by simp [hnil, hc.1] at hlen
  have hcheck : checkStep s = scanningAt 0 s := by
    rcases checkStep_cases s with ⟨hread, -⟩ | ⟨-, -, hlt, -⟩ | ⟨-, -, -, heq⟩
    · simp [hne, hshort] at hread
    · omega
    · exact heq
  rw [step_of_ownStepReady (by simp [ownStepReady, hb, hs]) hu, blockStep, if_pos hb, hs, hcheck]

/-- In SCAN a step is the trial decode at CUR (43 R159, R160). -/
theorem step_scanningAt {s : State} (hb : s.cmdBusy = true) (hu : undisturbed s = true) (k : Nat) :
    step (scanningAt k s) = scanStep (scanningAt k s) := by
  have hr : ownStepReady (scanningAt k s) = true := by simp [ownStepReady, scanningAt, hb]
  rw [step_of_ownStepReady hr hu]
  exact if_pos hb

/-- An offset that decodes is the one whose frame is returned (43 R159). -/
theorem step_scanningAt_match {s : State} (hb : s.cmdBusy = true) (hu : undisturbed s = true) {k : Nat} {f : Frame}
    (h : decodeAt s.cfg s.buf k = .ok f) : step (scanningAt k s) = .next (scanMatch f (scanningAt k s)) := by
  rw [step_scanningAt hb hu, scanStep]
  simp only [scanningAt, h]

/-- A failed offset that is not the last one moves CUR on (43 R160). -/
theorem step_scanningAt_next {s : State} (hb : s.cmdBusy = true) (hu : undisturbed s = true) {k : Nat}
    (h : ¬ decodesAt s k) (hlt : k + s.cfg.minMessageSize < s.buf.length) :
    step (scanningAt k s) = .next (scanningAt (k + 1) s) := by
  obtain ⟨e, he⟩ := decodeFrame_error_of (w := s.buf.drop k) fun f hf => h ⟨f, hf⟩
  rw [step_scanningAt hb hu, scanStep]
  simp only [scanningAt, decodeAt, he]
  exact if_pos hlt

/-- SCAN passes over the first `n` offsets, none of which decodes, in `n` steps that move CUR only (43 R160). -/
theorem runSteps_scan_garbage {s : State} (hb : s.cmdBusy = true) (hu : undisturbed s = true) {n : Nat}
    (hlen : n + s.cfg.minMessageSize ≤ s.buf.length) (hgarbage : ∀ k, k < n → ¬ decodesAt s k) :
    runSteps n (scanningAt 0 s) = .next (scanningAt n s) := by
  induction n with
  | zero => rfl
  | succ n ih =>
    have hrun := ih (by omega) fun k hk => hgarbage k (by omega)
    rw [runSteps_add hrun 1, runSteps_succ (step_scanningAt_next hb hu (hgarbage n (by omega)) (by omega)),
      runSteps_zero]

/-! ### The frame at the lowest offset -/

/-- A valid frame behind garbage decodes at the garbage's end, whatever follows it. -/
theorem decodeAt_validFrame {cfg : Config} (hc : cfg.Specified) {w : List Byte} (hw : ValidFrame cfg.crcAlg w)
    (g x : List Byte) : decodeAt cfg (g ++ w ++ x) g.length = .ok (frameOf cfg w) := by
  rw [decodeAt, List.append_assoc, List.drop_left]
  exact decodeFrame_append hc (decodeFrame_of_validFrame hc hw) x

/-- The match at a valid frame consumes the garbage and the frame, and nothing behind them (43 R159). -/
theorem scanMatch_validFrame {s : State} (hc : s.cfg.Specified) {g w x : List Byte} (hbuf : s.buf = g ++ w ++ x)
    (hw : ValidFrame s.cfg.crcAlg w) :
    scanMatch (frameOf s.cfg w) (scanningAt g.length s) =
      { s with
        buf := x
        cur := 0
        syncState := .idle
        cmdBusy := false
        out := s.out ++ [.response ⟨.ok, .frame (frameOf s.cfg w)⟩] } := by
  have hrest : s.buf.drop (g.length + frameSize s.cfg.offsets (frameOf s.cfg w).len) = x := by
    rw [frameSize_of_validFrame hc hw, hbuf, ← List.length_append, List.drop_left]
  simp only [scanMatch, scanningAt, respond, Memory.consume, hrest]

/-- Settles O41: one step from CHECK into SCAN, one step for each offset of the garbage, and the match. -/
theorem lowestValidFrameIsReturned : Obligations.LowestValidFrameIsReturned := by
  intro s g w x h hs hshort hu hbuf hw hgarbage
  have hc := h.config
  have hb : s.cmdBusy = true := by rw [h.busy, hs]; rfl
  have hmatch : decodeAt s.cfg s.buf g.length = .ok (frameOf s.cfg w) := by
    rw [hbuf]
    exact decodeAt_validFrame hc hw g x
  have hroom : g.length + s.cfg.minMessageSize ≤ s.buf.length := decodesAt_inRange hc ⟨_, hmatch⟩
  have hcheck := step_check_toScan hc hb hs hu hshort (by omega)
  refine ⟨g.length + 1 + 1, frameOf s.cfg w, decodeFrame_of_validFrame hc hw, ?_⟩
  rw [runSteps_succ hcheck, runSteps_add (runSteps_scan_garbage hb hu hroom hgarbage) 1,
    runSteps_succ (step_scanningAt_match hb hu hmatch), runSteps_zero, scanMatch_validFrame hc hbuf hw]

end Sys2Proof.Machine
end

section
/-! SUPPORT. The statements of spec/30_encoding.md: the decoder by the row that a word selects, the round trips, the
illegal transfers, the sizes of frames, and the one response of each transfer. -/

namespace Sys2Proof

/-! ### The row a word selects -/

/-- Every row's mask covers OPC, so the words a row selects have its opcode (30 R73). -/
theorem opcOf_of_selects {r : Row} (hr : r ∈ opcodeTable) {w : U16} (h : r.selects w = true) :
    opcOf w = opcOf r.pattern := by
  have hmask : ∀ r ∈ opcodeTable, opcOf r.mask = BitVec.allOnes 4 := by decide
  have hand : opcOf (w &&& r.mask) = opcOf w &&& opcOf r.mask := BitVec.extractLsb'_and
  rw [← beq_iff_eq.1 h, hand, hmask r hr, BitVec.and_allOnes]

/-- The eight rows have eight opcodes (30 R73). -/
theorem row_eq_of_opcOf_eq : ∀ r₁ ∈ opcodeTable, ∀ r₂ ∈ opcodeTable, opcOf r₁.pattern = opcOf r₂.pattern → r₁ = r₂ := by
  decide

/-- Settles O3: the rows that a word selects have its opcode, and no two rows share one. -/
theorem atMostOneRowSelected : Obligations.AtMostOneRowSelected := by
  intro w r₁ r₂ hr₁ hr₂ h₁ h₂
  exact row_eq_of_opcOf_eq r₁ hr₁ r₂ hr₂ ((opcOf_of_selects hr₁ h₁).symm.trans (opcOf_of_selects hr₂ h₂))

/-! ### The decoder's loop -/

/-- The loop of 30 R75 answers an error when no row is selected. -/
theorem decodeRows_of_none_selects {w : U16} {rows : List Row} (h : ∀ r ∈ rows, r.selects w ≠ true) (p : List Byte) :
    decodeRows w p rows = .error (unselected w) := by
  induction rows with
  | nil => rfl
  | cons r rest ih =>
    obtain ⟨hr, hrest⟩ := List.forall_mem_cons.1 h
    rw [decodeRows, if_neg hr, ih hrest]

/-- The loop of 30 R75 answers by the only row that is selected. -/
theorem decodeRows_of_selects {w : U16} {r : Row} {rows : List Row} (hr : r ∈ rows) (hs : r.selects w = true)
    (honly : ∀ r' ∈ rows, r'.selects w = true → r' = r) (p : List Byte) :
    decodeRows w p rows =
      if r.payloadAllowed = false ∧ p ≠ [] then .error .payloadNotAllowed else .ok (r.mnemonic.instr w p) := by
  induction rows with
  | nil => cases hr
  | cons r' rest ih =>
    obtain ⟨hr', hrest⟩ := List.forall_mem_cons.1 honly
    by_cases hs' : r'.selects w = true
    · rw [decodeRows, if_pos hs', hr' hs']
      simp
    · have hmem : r ∈ rest := (List.mem_cons.1 hr).resolve_left fun heq => hs' (heq ▸ hs)
      rw [decodeRows, if_neg hs', ih hmem hrest]

/-- When the decoder answers an instruction: a row is selected, the payload obeys its payload column, and the
instruction is the row's (30 R75). -/
theorem decodeCmd_ok_iff {w : U16} {p : List Byte} {i : Instr} :
    decodeCmd w p = .ok i ↔
      ∃ r ∈ opcodeTable, r.selects w = true ∧ (r.payloadAllowed = false → p = []) ∧ r.mnemonic.instr w p = i := by
  have hrow : ∀ r ∈ opcodeTable, r.selects w = true → decodeCmd w p =
      if r.payloadAllowed = false ∧ p ≠ [] then .error .payloadNotAllowed else .ok (r.mnemonic.instr w p) :=
    fun r hr hs => decodeRows_of_selects hr hs (fun r' hr' hs' => atMostOneRowSelected w r' r hr' hr hs' hs) p
  constructor
  · intro h
    by_cases hsel : ∃ r ∈ opcodeTable, r.selects w = true
    · obtain ⟨r, hr, hs⟩ := hsel
      rw [hrow r hr hs] at h
      split at h
      · cases h
      · rename_i hp
        exact ⟨r, hr, hs, fun hno => not_not.1 fun hne => hp ⟨hno, hne⟩, Except.ok.inj h⟩
    · rw [decodeCmd, decodeRows_of_none_selects fun r hr hs => hsel ⟨r, hr, hs⟩] at h
      cases h
  · rintro ⟨r, hr, hs, hp, rfl⟩
    rw [hrow r hr hs, if_neg fun h => h.2 (hp h.1)]

/-! ### The round trips -/

open Laws in
/-- Every instruction's transfer selects its own row (30 R73). -/
theorem rowMatch_statement (i : Instr) : RowMatch.Statement i := by
  cases i with
  | crcInit => exact RowMatch.crcInit
  | crcUpdate b => exact RowMatch.crcUpdate b
  | crcRead => exact RowMatch.crcRead
  | setId b => exact RowMatch.setId b
  | getId => exact RowMatch.getId
  | encode sel dest data => exact RowMatch.encode sel dest data
  | decode window => exact RowMatch.decode window
  | nextFrame => exact RowMatch.nextFrame

open Laws in
/-- The fields of an instruction's word are its operands (30 R70 to R72). -/
theorem instr_encode {i : Instr} (h : i.wf = true) :
    (RowMatch.rowOf i).mnemonic.instr (encode i).word (encode i).payload = i := by
  cases i with
  | crcUpdate b => exact congrArg Instr.crcUpdate (wordB_low 0x2000 b (by decide))
  | setId b => exact congrArg Instr.setId (wordB_low 0x4000 b (by decide))
  | encode sel dest data =>
    have hsel : FunSel.ofFsel (fselOf (wordE 0x6000 sel.fsel dest)) = sel := by
      rw [wordE_fsel _ _ _ (by decide), FunSel.ofFsel_fsel h]
    have hdest : lowByteOf (wordE 0x6000 sel.fsel dest) = dest := wordE_low _ _ _ (by decide)
    simp only [RowMatch.rowOf, Mnemonic.instr, encode, hsel, hdest]
  | crcInit | crcRead | getId | decode | nextFrame => rfl

/-- Settles O1: the encoding selects the instruction's row, and its fields are the operands. -/
theorem decodeOfEncodeIsTheInstruction : Obligations.DecodeOfEncodeIsTheInstruction := by
  intro i hi
  obtain ⟨hmem, hsel, hpayload⟩ := rowMatch_statement i
  exact decodeCmd_ok_iff.2 ⟨_, hmem, hsel, hpayload, instr_encode hi⟩

/-- A word of format B is its row's pattern with its low byte (30 R70). -/
theorem wordB_lowByteOf {w v : U16} (h : w &&& 0xFF00 = v) : wordB v (lowByteOf w) = w := by
  subst h
  have hmask : ∀ i (h : i < 16), (0xFF00#16)[i] = decide (8 ≤ i) := by decide
  apply BitVec.eq_of_getLsbD_eq
  intro i hi
  by_cases h8 : i < 8
  · simp +contextual [wordB, lowByteOf, hi, h8]
  · simp [wordB, lowByteOf, hmask, hi, Nat.le_of_not_lt h8]

/-- A word of format E is its row's pattern with its FSEL and its low byte (30 R71). -/
theorem wordE_fselOf_lowByteOf {w v : U16} (h : w &&& 0xF800 = v) : wordE v (fselOf w) (lowByteOf w) = w := by
  subst h
  have hmask : ∀ i (h : i < 16), (0xF800#16)[i] = decide (11 ≤ i) := by decide
  apply BitVec.eq_of_getLsbD_eq
  intro i hi
  by_cases h8 : i < 8
  · simp +contextual [wordE, fselOf, lowByteOf, hi, h8]
  · by_cases h11 : i < 11
    · have hfield : i - 8 < 3 := by omega
      have hpos : 8 + (i - 8) = i := by omega
      simp +contextual [wordE, fselOf, lowByteOf, hi, h8, hfield, hpos]
    · have hfield : ¬ i - 8 < 3 := by omega
      simp [wordE, fselOf, lowByteOf, hmask, hi, h8, hfield, Nat.le_of_not_lt h11]

/-- A selected row's instruction is well formed, and its transfer is the one it was read from, the payload obeying the
row's column. -/
theorem encode_instr_of_selects {r : Row} (hr : r ∈ opcodeTable) {w : U16} (hs : r.selects w = true) {p : List Byte}
    (hp : r.payloadAllowed = false → p = []) :
    (r.mnemonic.instr w p).wf = true ∧ encode (r.mnemonic.instr w p) = ⟨w, p⟩ := by
  simp only [opcodeTable, List.mem_cons, List.not_mem_nil, or_false] at hr
  rw [Row.selects, beq_iff_eq] at hs
  rcases hr with rfl | rfl | rfl | rfl | rfl | rfl | rfl | rfl
  case inr.inl | inr.inr.inr.inl =>
    obtain rfl := hp rfl
    exact ⟨rfl, congrArg (Transfer.mk · []) (wordB_lowByteOf hs)⟩
  case inr.inr.inr.inr.inr.inl =>
    refine ⟨FunSel.wf_ofFsel _, ?_⟩
    simp only [Mnemonic.instr, encode, FunSel.fsel_ofFsel, wordE_fselOf_lowByteOf hs]
  case inr.inr.inr.inr.inr.inr.inl =>
    rw [and_mask_word] at hs
    exact ⟨rfl, congrArg (Transfer.mk · p) hs.symm⟩
  all_goals
    obtain rfl := hp rfl
    rw [and_mask_word] at hs
    exact ⟨rfl, congrArg (Transfer.mk · []) hs.symm⟩

/-- Settles O2: what decodes is a selected row's instruction. -/
theorem encodeOfDecodedIsTheTransfer : Obligations.EncodeOfDecodedIsTheTransfer := by
  intro w p i h
  obtain ⟨r, hr, hs, hp, rfl⟩ := decodeCmd_ok_iff.1 h
  exact encode_instr_of_selects hr hs hp

/-- Settles O6: each transfer is the encoding of its instruction. -/
theorem tableWordsDecode : Obligations.TableWordsDecode := by
  have hdecode := decodeOfEncodeIsTheInstruction
  exact ⟨hdecode .crcInit rfl, hdecode (.crcUpdate 0x31) rfl, hdecode .crcRead rfl, hdecode (.setId 0x10) rfl,
    hdecode .getId rfl, hdecode (.encode .error 0x02 [0x05]) rfl, hdecode (.encode (.unrecognized 4) 0x01 []) rfl,
    hdecode (.decode [0x63, 0x00]) rfl, hdecode .nextFrame rfl⟩

/-- Settles O7: each line is read by the assembler of 30 R79 and R80. -/
theorem textLinesAssemble : Obligations.TextLinesAssemble := by
  unfold Obligations.TextLinesAssemble
  decide

/-! ### Legal and illegal transfers -/

/-- The mask of formats N and P selects by OPC and the twelve RSV bits (30 R69, R72). -/
theorem and_mask_word_eq_iff (w : U16) {v : U16} {k : Nat} (hopc : (opcOf v).toNat = k)
    (hrsv : v.extractLsb' 0 12 = 0) : w &&& 0xFFFF = v ↔ (opcOf w).toNat = k ∧ w.extractLsb' 0 12 = 0 := by
  rw [and_mask_word, word_eq_iff, hrsv, ← hopc, BitVec.toNat_inj]

/-- The mask of format B selects by OPC and the four RSV bits (30 R70). -/
theorem and_mask_formatB_eq_iff (w : U16) {v : U16} {k : Nat} (hopc : (opcOf v).toNat = k)
    (hlow : v.extractLsb' 0 8 = 0) (hrsv : v.extractLsb' 8 4 = 0) :
    w &&& 0xFF00 = v ↔ (opcOf w).toNat = k ∧ w.extractLsb' 8 4 = 0 := by
  obtain ⟨hopc', hrsv'⟩ := (high_byte_eq_iff v _).1 rfl
  rw [and_mask_high_byte w v hlow, high_byte_eq_iff, ← hopc', ← hrsv', hrsv, ← hopc, BitVec.toNat_inj]

/-- The mask of format E selects by OPC and the one RSV bit (30 R71). -/
theorem and_mask_formatE_eq_iff (w : U16) : w &&& 0xF800 = 0x6000 ↔ (opcOf w).toNat = 6 ∧ w.getLsbD 11 = false := by
  have hfive : w &&& 0xF800 = 0x6000 ↔ w.extractLsb' 11 5 = 0x0C := and_mask_high_five w 0x6000 (by decide)
  rw [hfive, high_five_eq_iff, ← BitVec.toNat_inj]
  rfl

/-- The legal transfers, row by row: OPC, the RSV bits of its format, the payload column (30 R69 to R73). -/
theorem decodeCmd_legal_iff (w : U16) (p : List Byte) :
    (∃ i, decodeCmd w p = .ok i) ↔
      (((opcOf w).toNat = 1 ∧ w.extractLsb' 0 12 = 0) ∧ p = []) ∨
      (((opcOf w).toNat = 2 ∧ w.extractLsb' 8 4 = 0) ∧ p = []) ∨
      (((opcOf w).toNat = 3 ∧ w.extractLsb' 0 12 = 0) ∧ p = []) ∨
      (((opcOf w).toNat = 4 ∧ w.extractLsb' 8 4 = 0) ∧ p = []) ∨
      (((opcOf w).toNat = 5 ∧ w.extractLsb' 0 12 = 0) ∧ p = []) ∨
      ((opcOf w).toNat = 6 ∧ w.getLsbD 11 = false) ∨
      ((opcOf w).toNat = 7 ∧ w.extractLsb' 0 12 = 0) ∨
      (((opcOf w).toNat = 8 ∧ w.extractLsb' 0 12 = 0) ∧ p = []) := by
  have hrow : (∃ i, decodeCmd w p = .ok i) ↔
      ∃ r ∈ opcodeTable, w &&& r.mask = r.pattern ∧ (r.payloadAllowed = false → p = []) := by
    simp only [decodeCmd_ok_iff, Row.selects, beq_iff_eq]
    exact ⟨fun ⟨_, r, hr, hs, hp, _⟩ => ⟨r, hr, hs, hp⟩, fun ⟨r, hr, hs, hp⟩ => ⟨_, r, hr, hs, hp, rfl⟩⟩
  have h1 := and_mask_word_eq_iff w (v := 0x1000) (k := 1) (by decide) (by decide)
  have h2 := and_mask_formatB_eq_iff w (v := 0x2000) (k := 2) (by decide) (by decide) (by decide)
  have h3 := and_mask_word_eq_iff w (v := 0x3000) (k := 3) (by decide) (by decide)
  have h4 := and_mask_formatB_eq_iff w (v := 0x4000) (k := 4) (by decide) (by decide) (by decide)
  have h5 := and_mask_word_eq_iff w (v := 0x5000) (k := 5) (by decide) (by decide)
  have h6 := and_mask_formatE_eq_iff w
  have h7 := and_mask_word_eq_iff w (v := 0x7000) (k := 7) (by decide) (by decide)
  have h8 := and_mask_word_eq_iff w (v := 0x8000) (k := 8) (by decide) (by decide)
  rw [hrow]
  simp only [opcodeTable, List.exists_mem_cons_iff, List.not_mem_nil, false_and, exists_false, or_false, h1, h2,
    h3, h4, h5, h6, h7, h8, forall_const, reduceCtorEq, false_implies, and_true]

end Sys2Proof

namespace Sys2Proof.Machine

/-- A transfer is legal in exactly the cases that R74 leaves, opcode by opcode. -/
theorem not_illegalTransfer_iff (w : U16) (p : List Byte) :
    ¬ IllegalTransfer w p ↔ ∃ i, decodeCmd w p = .ok i := by
  rw [decodeCmd_legal_iff]
  unfold IllegalTransfer
  have hk : (opcOf w).toNat < 16 := (opcOf w).isLt
  generalize (opcOf w).toNat = k at hk ⊢
  interval_cases k <;> simp

/-- Settles O4: an error is no instruction, and the legal transfers are those outside R74's three cases. -/
theorem illegalExactlyInTheThreeCases : Obligations.IllegalExactlyInTheThreeCases := by
  intro w p
  rw [← not_not (a := IllegalTransfer w p), not_illegalTransfer_iff]
  cases decodeCmd w p <;> simp

/-! ### The step at a ready port -/

/-- A transfer next at a ready port is accepted (30 R60). -/
theorem step_of_readyTransfer {s : State} {w : U16} {p : List Byte} {rest : List Input}
    (hi : s.inputs = .transfer w p :: rest) (hb : s.cmdBusy = false) :
    step s = acceptTransfer w p { s with inputs := rest } := by
  simp [step_of_transfer hi, ownStepReady, hb]

/-- Settles O8: the port takes the transfer and runs what it decodes to. -/
theorem stepRunsTheDecodedCommand : Obligations.StepRunsTheDecodedCommand := by
  intro s w p rest i hi hb hd
  rw [step_of_readyTransfer hi hb, acceptTransfer, hd]

/-- Settles O5: each of the three cases is a decoder's error, which is answered and changes nothing. -/
theorem illegalTransferChangesNoState : Obligations.IllegalTransferChangesNoState := by
  intro s w p rest hi hb hillegal
  obtain ⟨e, he⟩ := (illegalExactlyInTheThreeCases w p).2 hillegal
  rw [step_of_readyTransfer hi hb, acceptTransfer, he]
  simp [raise, respond, hb]

/-! ### Frames -/

/-- Settles O28: with no byte beyond the window, Decode's residue is that of the whole sequence. -/
theorem validFrameIffAccepted : Obligations.ValidFrameIffAccepted := by
  intro cfg w hc
  constructor
  · intro hw
    exact ⟨hw.1, _, decodeFrame_of_validFrame hc hw⟩
  · rintro ⟨hlen, f, hf⟩
    obtain ⟨-, hzero, -, hcrc, -⟩ := (decodeFrame_ok_iff_specified hc).1 hf
    rw [← hlen, List.take_length] at hcrc
    exact ⟨hlen, Nat.pos_of_ne_zero fun h => hzero (BitVec.eq_of_toNat_eq h), hcrc⟩

/-- A valid frame has 11 to 265 bytes: a length byte of 1 to 255 and ten more (30 R63). -/
theorem length_of_validFrame {alg : CrcAlg} {w : List Byte} (hw : ValidFrame alg w) :
    11 ≤ w.length ∧ w.length ≤ 265 := by
  obtain ⟨hlen, hpos, -⟩ := hw
  have := (byteOf w 4).isLt
  omega

/-- An ENCODE that returns bytes had at most 255 data bytes and a function's code, and returns the built frame
(42 R130). -/
theorem execEncode_ok {s : State} {sel : FunSel} {dest : Byte} {data v : List Byte}
    (h : exec (.encode sel dest data) s =
      .next { s with cmdBusy := false, out := s.out ++ [.response ⟨.ok, .bytes v⟩] }) :
    data.length ≤ 255 ∧ ∃ code, FunSel.code s.cfg.functionCodes sel = some code ∧
      v = buildFrame s.cfg dest s.localId code data := by
  rw [exec, execEncode] at h
  split at h
  · simp [raise, respond] at h
  · rename_i hlen
    split at h
    · simp [raise, respond] at h
    · rename_i code hcode
      simp only [respond, Host.Outcome.next.injEq, State.mk.injEq, List.append_cancel_left_eq, List.cons.injEq,
        Output.response.injEq, Response.mk.injEq, Value.bytes.injEq, true_and, and_true] at h
      exact ⟨Nat.le_of_not_lt hlen, code, hcode, h.symm⟩

/-- Settles O29: an encoded frame is its data and ten bytes; a valid frame is its length byte and ten; Decode takes
fewer than eleven bytes for too short a frame. -/
theorem frameSizesAreBounded : Obligations.FrameSizesAreBounded := by
  refine ⟨?_, ?_, ?_⟩
  · rintro s sel dest data v ⟨-, -, -, hmax, -, hoffsets, -⟩ h
    obtain ⟨hlen, code, -, rfl⟩ := execEncode_ok h
    have hdata : s.cfg.offsets.data = 8 := by rw [hoffsets]; rfl
    rw [buildFrame_length, hmax, hdata]
    omega
  · rintro cfg w ⟨hmin, -, -, hmax, -⟩ hw
    rw [hmin, hmax]
    exact length_of_validFrame hw
  · intro cfg w f hc hlen hf
    obtain ⟨hmin, -⟩ := (decodeFrame_ok_iff_specified hc).1 hf
    omega

/-- A code that is none of the four is Unknown's (30 R64). -/
theorem tagOf_source_unknown {c : Byte} (hreply : c ≠ 0x06) (hread : c ≠ 0x0B) (hwrite : c ≠ 0x0C)
    (herror : c ≠ 0x15) : tagOf FunctionCodes.source c = .unknown := by
  simp only [tagOf, FunctionCodes.source, hreply, hread, hwrite, herror, if_false]

/-- Settles O30: the four codes by computation, the others by exclusion. -/
theorem functionTags : Obligations.FunctionTags := by
  rintro cfg codes ⟨-, -, -, -, hcodes, -⟩ rfl
  rw [hcodes]
  refine ⟨by decide, by decide, by decide, by decide, ?_⟩
  intro c hreply hread hwrite herror
  rw [tagOf_source_unknown hreply hread hwrite herror]
  rfl

/-! ### One response for each transfer -/

/-- The output record only grows, and the responses, with the one still owed, become `k` more. -/
def OwesMore (k : Nat) (s t : State) : Prop :=
  responseCount t + t.cmdBusy.toNat = responseCount s + s.cmdBusy.toNat + k ∧ ∃ l, t.out = s.out ++ l

/-- What the outputs `l` do to the number of responses. -/
theorem responseCount_append {s t : State} {l : List Output} (h : t.out = s.out ++ l) :
    responseCount t = responseCount s + responseCount { s with out := l } := by
  simp only [responseCount, h, List.countP_append]

/-- No output, and CMD_BUSY as it was. -/
theorem owesMore_quiet {s t : State} (hout : t.out = s.out) (hb : t.cmdBusy = s.cmdBusy) : OwesMore 0 s t := by
  refine ⟨?_, [], by rw [hout, List.append_nil]⟩
  simp only [responseCount, hout, hb, Nat.add_zero]

/-- A transport read is no response. -/
theorem owesMore_startRead (s : State) : OwesMore 0 s (startRead s) :=
  ⟨by rw [responseCount_append (startRead_out s)]; rfl, _, startRead_out s⟩

/-- A response is the one owed, or, to a transfer that is answered at once, the one more. -/
theorem owesMore_response {k : Nat} {s t : State} {r : Response} (hout : t.out = s.out ++ [.response r])
    (hb : t.cmdBusy = false) (hk : s.cmdBusy.toNat + k = 1) : OwesMore k s t := by
  refine ⟨?_, _, hout⟩
  have hone : responseCount { s with out := [.response r] } = 1 := rfl
  rw [responseCount_append hout, hone, hb, Bool.toNat_false]
  omega

/-- The block's own steps give NEXT_FRAME's response or none. -/
theorem owesMore_blockStep {s t : State} (h : blockStep s = .next t) : OwesMore 0 s t := by
  rcases blockStep_cases h with ⟨-, rfl⟩ | ⟨-, -, rfl⟩ | ⟨hb, -, f, -, rfl⟩ | ⟨-, -, -, -, rfl⟩ | ⟨-, -, -, -, rfl⟩
  · exact owesMore_quiet rfl rfl
  · rcases checkStep_cases s with ⟨-, heq⟩ | ⟨-, -, -, heq⟩ | ⟨-, -, -, heq⟩
    · exact heq ▸ owesMore_startRead s
    · exact heq ▸ owesMore_startRead (setShort s)
    · exact heq ▸ owesMore_quiet rfl rfl
  · exact owesMore_response (scanMatch_out f s) rfl (by rw [hb]; rfl)
  · exact owesMore_quiet rfl rfl
  · exact owesMore_quiet rfl rfl

/-- An answer to the outstanding read ends NEXT_FRAME with its response, or goes on without one. -/
theorem owesMore_takeAnswer {s : State} (hb : s.cmdBusy = true) (a : Answer) : OwesMore 0 s (takeAnswer a s) := by
  rcases takeAnswer_cases a s with ⟨y, e, -, heq⟩ | ⟨c, -, -, -, heq⟩
  · exact heq ▸ owesMore_response (endStream_out y e s) rfl (by rw [hb]; rfl)
  · exact heq ▸ owesMore_quiet rfl rfl

/-- A command at a ready port is answered, or is NEXT_FRAME in flight. -/
theorem owesMore_exec {i : Instr} {s t : State} (hb : s.cmdBusy = false) (h : exec i s = .next t) :
    OwesMore 1 s t := by
  rcases exec_cases h with ⟨-, -, rfl⟩ | ⟨st, v, rfl⟩
  · exact ⟨by simp [responseCount, hb], [], by simp⟩
  · exact owesMore_response (r := ⟨st, v⟩) (by simp) rfl (by rw [hb]; rfl)

/-- A transfer that is accepted gets its response or is in flight (30 R60, R74). -/
theorem owesMore_acceptTransfer {w : U16} {p : List Byte} {s t : State} (hb : s.cmdBusy = false)
    (h : acceptTransfer w p s = .next t) : OwesMore 1 s t := by
  unfold acceptTransfer at h
  split at h
  · exact owesMore_exec hb h
  · cases h
    exact owesMore_response (raise_out _ s) rfl (by rw [hb]; rfl)

/-- A step accepts a transfer when one is next at a ready port (30 R60). -/
theorem acceptsTransfer_iff {s : State} :
    acceptsTransfer s = true ↔ ∃ w p rest, s.inputs = .transfer w p :: rest ∧ s.cmdBusy = false := by
  unfold acceptsTransfer
  split <;> simp_all

/-- Settles O55: an accepted transfer owes one response more; every other step but a reset keeps what is owed. -/
theorem oneResponsePerTransfer : Obligations.OneResponsePerTransfer := by
  intro s t _ h hr
  show OwesMore (acceptsTransfer s).toNat s t
  by_cases hacc : acceptsTransfer s = true
  · obtain ⟨w, p, rest, hi, hb⟩ := acceptsTransfer_iff.1 hacc
    rw [step_of_readyTransfer hi hb] at h
    rw [hacc]
    exact owesMore_acceptTransfer (s := { s with inputs := rest }) hb h
  · rw [Bool.eq_false_iff.2 hacc]
    rcases step_cases h with ⟨rest, hi, -⟩ | ⟨-, l, -, hblock⟩ | ⟨w, p, rest, e, hi, hb, -, -⟩ |
      ⟨w, p, rest, i, hi, hb, -, -⟩ | ⟨a, l, -, hb, -, -, rfl⟩ | ⟨n, a, rest, -, -, -, rfl⟩
    · simp [takesReset, hi] at hr
    · exact owesMore_blockStep (s := { s with inputs := l }) hblock
    · exact absurd (acceptsTransfer_iff.2 ⟨w, p, rest, hi, hb⟩) hacc
    · exact absurd (acceptsTransfer_iff.2 ⟨w, p, rest, hi, hb⟩) hacc
    · exact owesMore_takeAnswer (s := { s with inputs := l }) hb a
    · exact owesMore_quiet rfl rfl

end Sys2Proof.Machine
end

section
/-! SUPPORT. The statements of spec/41_crc.md: the three commands at the port, the laws of the checksum, and the run of
crc.of. -/

namespace Sys2Proof.Machine

/-! ### The three commands at a ready port -/

/-- The transfer of a well-formed instruction, next at a ready port, runs that instruction (30 R60). -/
theorem step_of_readyInstr {s : State} {i : Instr} {rest : List Input} (hwf : i.wf = true)
    (hi : s.inputs = .transfer (encode i).word (encode i).payload :: rest) (hb : s.cmdBusy = false) :
    step s = exec i { s with inputs := rest } :=
  stepRunsTheDecodedCommand s _ _ rest i hi hb (decodeOfEncodeIsTheInstruction i hwf)

/-- With no command in flight, a response is an entry on the response port and nothing else. -/
theorem respond_of_ready {s : State} (hb : s.cmdBusy = false) (st : Status) (v : Value) :
    respond st v s = { s with out := s.out ++ [.response ⟨st, v⟩] } := by
  rw [respond, ← hb]

/-- CRC_INIT at a ready port, whatever the configuration's initial value (41 R110). -/
theorem step_crcInit {s : State} {rest : List Input} (hi : s.inputs = .transfer 0x1000 [] :: rest)
    (hb : s.cmdBusy = false) : step s = .next { s with
      crcAcc := s.cfg.crcAlg.init, inputs := rest, out := s.out ++ [.response ⟨.ok, .noValue⟩] } := by
  rw [step_of_readyInstr (i := .crcInit) rfl hi hb, exec, execCrcInit, respond_of_ready (by exact hb)]

/-- CRC_UPDATE at a ready port, whatever the configuration's polynomial (41 R111). -/
theorem step_crcUpdate {s : State} {b : Byte} {rest : List Input}
    (hi : s.inputs = .transfer (0x2000 ||| b.setWidth 16) [] :: rest) (hb : s.cmdBusy = false) :
    step s = .next { s with
      crcAcc := crcStep s.cfg.crcAlg s.crcAcc b, inputs := rest
      out := s.out ++ [.response ⟨.ok, .noValue⟩] } := by
  rw [step_of_readyInstr (i := .crcUpdate b) rfl hi hb, exec, execCrcUpdate, respond_of_ready (by exact hb)]

/-- CRC_READ at a ready port (41 R112). -/
theorem step_crcRead {s : State} {rest : List Input} (hi : s.inputs = .transfer 0x3000 [] :: rest)
    (hb : s.cmdBusy = false) :
    step s = .next { s with inputs := rest, out := s.out ++ [.response ⟨.ok, .u16 s.crcAcc⟩] } := by
  rw [step_of_readyInstr (i := .crcRead) rfl hi hb, exec, execCrcRead, respond_of_ready (by exact hb)]

/-- Settles O11: the specified initial value is 0x0000. -/
theorem crcInitEffect : Obligations.CrcInitEffect := by
  rintro s ⟨-, -, halg, -⟩
  have hinit : s.cfg.crcAlg.init = 0x0000 := by rw [halg]; rfl
  rw [← hinit]
  exact ⟨rfl, fun rest => step_crcInit⟩

/-- The shift folded over any list is the shift repeated, once for each element (41 R101). -/
theorem foldl_crcShift {α : Type} (alg : CrcAlg) (l : List α) (c : U16) :
    l.foldl (fun c _ => crcShift alg c) c = crcShifts alg l.length c := by
  induction l generalizing c with
  | nil => rfl
  | cons a l ih => exact ih _

/-- Settles O12: the eight shifts of R101 are the byte step of the specified algorithm. -/
theorem crcUpdateEffect : Obligations.CrcUpdateEffect := by
  rintro s b c ⟨-, -, halg, -⟩ hc
  have hstep : c = crcStep s.cfg.crcAlg s.crcAcc b := by
    rw [halg]
    exact hc.trans (foldl_crcShift CrcAlg.arc (List.range 8) _)
  subst hstep
  exact ⟨rfl, fun rest => step_crcUpdate⟩

/-- Settles O13: the response carries CRC_ACC, and the port's record is all that grows. -/
theorem crcReadEffect : Obligations.CrcReadEffect :=
  fun _ => ⟨rfl, fun _ => step_crcRead⟩

/-! ### The laws of the checksum -/

/-- Zero bytes keep a zero accumulator (41 R103 (b)). -/
theorem crcFold_zero_replicate (alg : CrcAlg) (hz : crcStep alg 0 0 = 0) (n : Nat) :
    crcFold alg 0 (List.replicate n 0) = 0 := by
  induction n with
  | zero => rfl
  | succ n ih => rw [List.replicate_succ, crcFold_cons, hz, ih]

/-- The checksum of a sequence, appended low byte first, leaves the residue zero (41 R103 (c)). -/
theorem crc16_append_le16_crc16 (alg : CrcAlg) (m : List Byte) : crc16 alg (m ++ le16 (crc16 alg m)) = 0 := by
  rw [crc16, crcFold_append]
  exact crcFold_le16 alg _

/-- The checksum of "123456789" appended high byte first leaves another residue (41 R103 (c)). -/
theorem crc16_append_highByteFirst :
    crc16 CrcAlg.arc ([0x31, 0x32, 0x33, 0x34, 0x35, 0x36, 0x37, 0x38, 0x39] ++ [0xBB, 0x3D]) = 0xC2E3 := by
  simp [crc16, crcStep, crcShifts, crcShift, CrcAlg.arc]

/-- Settles O15: the fold over an append, a zero step, the appended checksum, and one computed value. -/
theorem crcLaws : Obligations.CrcLaws := by
  have hzero : crcStep CrcAlg.arc 0 0 = 0 := by decide
  refine ⟨?_, ⟨hzero, crcFold_zero_replicate _ hzero⟩, crc16_append_le16_crc16 _, crc16_append_highByteFirst⟩
  intro s t
  rw [crc16, crcFold_append, crcFold_eq_foldl]
  rfl

/-- With a reflected polynomial whose top bit is set, another byte at one offset gives another accumulator: the two
folds part at that byte and never meet again (41 R104). -/
theorem crcFold_set_ne {alg : CrcAlg} (h : alg.polyReflected.getLsbD 15 = true) {w : List Byte} {i : Nat} {b : Byte}
    (hi : i < w.length) (hb : b ≠ byteOf w i) (c : U16) : crcFold alg c (w.set i b) ≠ crcFold alg c w := by
  induction w generalizing i c with
  | nil => simp at hi
  | cons a w ih =>
    cases i with
    | zero => exact fun heq => hb (crcStep_injective_right h (crcFold_injective h w heq))
    | succ i => exact ih (Nat.lt_of_succ_lt_succ hi) hb _

/-- Settles O16: 0xA001 has its top bit set, so the changed window's residue is not that of the window. -/
theorem singleByteChangeIsDetected : Obligations.SingleByteChangeIsDetected := by
  intro w i b hw hi hb hset
  exact crcFold_set_ne (alg := CrcAlg.arc) (by decide) hi hb _ (hset.trans hw.symm)

/-! ### The run of crc.of -/

/-- The transfers of crc.block fold their bytes into CRC_ACC, one step and one response each (41 R113, 30 R80). -/
theorem runSteps_crcBlock (bytes : List Byte) {s : State} {rest : List Input} (hb : s.cmdBusy = false)
    (hi : s.inputs = transferInputs (crcBlockTransfers bytes) ++ rest) :
    runSteps bytes.length s = .next { s with
      crcAcc := crcFold s.cfg.crcAlg s.crcAcc bytes
      inputs := rest
      out := s.out ++ List.replicate bytes.length (.response ⟨.ok, .noValue⟩) } := by
  induction bytes generalizing s with
  | nil =>
    obtain rfl : s.inputs = rest := hi
    simp
  | cons b bytes ih =>
    rw [List.length_cons, runSteps_succ (step_crcUpdate (b := b) hi hb), ih (by exact hb) rfl]
    simp [List.replicate_succ]

/-- Settles O14: one step initialises CRC_ACC, the block folds the bytes, one step reads the result. -/
theorem crcOfComputesTheCrc : Obligations.CrcOfComputesTheCrc := by
  intro s bytes rest hb hi
  have hblock : s.inputs = .transfer 0x1000 [] ::
      (transferInputs (crcBlockTransfers bytes) ++ (.transfer 0x3000 [] :: rest)) := by
    rw [hi]
    simp [crcOfTransfers, transferInputs, encode]
  rw [runSteps_succ (step_crcInit hblock hb), runSteps_add (runSteps_crcBlock bytes (by exact hb) rfl),
    runSteps_succ (step_crcRead rfl (by exact hb)), runSteps_zero]
  simp [crc16, List.replicate_succ]

end Sys2Proof.Machine
end

section
/-! SUPPORT. The statements of spec/42_codec.md: SET_ID and GET_ID, ENCODE and the frame it builds, DECODE by its five
cases, and what Decode does not depend on. -/

namespace Sys2Proof.Machine

/-! ### The fields of a specified configuration (00 R13) -/

theorem minMessageSize_specified {cfg : Config} (hc : cfg.Specified) : cfg.minMessageSize = 11 := hc.1

theorem crcAlg_specified {cfg : Config} (hc : cfg.Specified) : cfg.crcAlg = CrcAlg.arc := hc.2.2.1

theorem functionCodes_specified {cfg : Config} (hc : cfg.Specified) : cfg.functionCodes = FunctionCodes.source :=
  hc.2.2.2.2.1

theorem offsets_specified {cfg : Config} (hc : cfg.Specified) : cfg.offsets = HeaderOffsets.frame := hc.2.2.2.2.2.1

/-! ### The two bytes of a u16 -/

/-- A word's low byte, as a field and as a truncation. -/
theorem extractLsb'_low_byte (v : U16) : v.extractLsb' 0 8 = v.setWidth 8 := by
  apply BitVec.eq_of_getLsbD_eq
  intro i hi
  simp [hi]

/-- The bytes in the spelling of 20 R43. -/
theorem le16_eq (v : U16) : le16 v = [v.setWidth 8, (v >>> 8).setWidth 8] := by
  have hhigh : v.extractLsb' 8 8 = (v >>> 8).setWidth 8 := by
    apply BitVec.eq_of_getLsbD_eq
    intro i hi
    simp [hi]
  rw [le16, extractLsb'_low_byte, hhigh]

/-- The value of two bytes, low byte first (00 R15). -/
theorem u16le_eq_ofNat (a b : Byte) : u16le a b = BitVec.ofNat 16 (a.toNat + 256 * b.toNat) := by
  apply BitVec.eq_of_toNat_eq
  have ha := a.isLt
  have hb := b.isLt
  have hor : b.toNat <<< 8 ||| a.toNat = b.toNat <<< 8 + a.toNat := Nat.shiftLeft_add_eq_or_of_lt ha b.toNat |>.symm
  rw [u16le, BitVec.toNat_append, hor, Nat.shiftLeft_eq, BitVec.toNat_ofNat]
  omega

/-- A u16 comes back from its two bytes, wherever they stand (20 R43). -/
theorem u16le_append_le16 (m : List Byte) (v : U16) :
    u16le (byteOf (m ++ le16 v) m.length) (byteOf (m ++ le16 v) (m.length + 1)) = v := by
  have hlow : byteOf (m ++ le16 v) m.length = v.extractLsb' 0 8 := byteOf_append_right m (le16 v) 0
  have hhigh : byteOf (m ++ le16 v) (m.length + 1) = v.extractLsb' 8 8 := byteOf_append_right m (le16 v) 1
  apply BitVec.eq_of_toNat_eq
  have hv := v.isLt
  rw [hlow, hhigh, u16le_eq_ofNat, BitVec.toNat_ofNat, BitVec.extractLsb'_toNat, BitVec.extractLsb'_toNat,
    Nat.shiftRight_eq_div_pow, Nat.shiftRight_eq_div_pow]
  omega

/-- Two bytes come back from their u16. -/
theorem le16_u16le (a b : Byte) : le16 (u16le a b) = [a, b] := by
  have hlow : (u16le a b).extractLsb' 0 8 = a := BitVec.extractLsb'_append_eq_right
  have hhigh : (u16le a b).extractLsb' 8 8 = b := BitVec.extractLsb'_append_eq_left
  rw [le16, hlow, hhigh]

/-! ### The station's id -/

/-- SET_ID at a ready port (42 R120). -/
theorem step_setId {s : State} {b : Byte} {rest : List Input}
    (hi : s.inputs = .transfer (0x4000 ||| b.setWidth 16) [] :: rest) (hb : s.cmdBusy = false) :
    step s = .next { s with localId := b, inputs := rest, out := s.out ++ [.response ⟨.ok, .noValue⟩] } := by
  rw [step_of_readyInstr (i := .setId b) rfl hi hb, exec, execSetId, respond_of_ready (by exact hb)]

/-- GET_ID at a ready port (42 R122). -/
theorem step_getId {s : State} {rest : List Input} (hi : s.inputs = .transfer 0x5000 [] :: rest)
    (hb : s.cmdBusy = false) :
    step s = .next { s with inputs := rest, out := s.out ++ [.response ⟨.ok, .byte s.localId⟩] } := by
  rw [step_of_readyInstr (i := .getId) rfl hi hb, exec, execGetId, respond_of_ready (by exact hb)]

/-- Settles O17: the byte goes to LOCAL_ID, whatever its value. -/
theorem setIdEffect : Obligations.SetIdEffect :=
  fun _ _ => ⟨rfl, fun _ => step_setId⟩

/-- Settles O18: the response carries LOCAL_ID, and the port's record is all that grows. -/
theorem getIdEffect : Obligations.GetIdEffect :=
  fun _ => ⟨rfl, fun _ => step_getId⟩

/-! ### The frame that ENCODE builds -/

/-- The length byte of at most 255 data bytes does not wrap (42 R130). -/
theorem toNat_ofNat_length {data : List Byte} (h : data.length ≤ 255) :
    (BitVec.ofNat 8 data.length).toNat = data.length := by
  rw [BitVec.toNat_ofNat, Nat.mod_eq_of_lt (by omega)]

/-- A built frame as the wire bytes of 42 R130: header, data, checksum with its low byte first. -/
theorem buildFrame_eq_wire {cfg : Config} (hc : cfg.Specified) {dest src code : Byte} {data m : List Byte}
    (hm : m = [dest, 0x00, src, 0x00, BitVec.ofNat 8 data.length, 0x00, 0x00, code] ++ data) :
    buildFrame cfg dest src code data =
      m ++ [(crc16 cfg.crcAlg m).setWidth 8, (crc16 cfg.crcAlg m >>> 8).setWidth 8] := by
  rw [buildFrame_specified hc, ← hm, ← le16_eq, hm]
  rfl

/-- The length byte of a built frame (30 R61). -/
theorem byteOf_buildFrame_length {cfg : Config} (hc : cfg.Specified) (dest src code : Byte) (data : List Byte) :
    byteOf (buildFrame cfg dest src code data) 4 = BitVec.ofNat 8 data.length := by
  rw [buildFrame_specified hc]
  rfl

/-- The size of a built frame (30 R61). -/
theorem buildFrame_length_specified {cfg : Config} (hc : cfg.Specified) (dest src code : Byte) (data : List Byte) :
    (buildFrame cfg dest src code data).length = data.length + 10 := by
  rw [buildFrame_specified hc]
  simp

/-- A built frame with 1 to 255 data bytes is a valid frame (30 R62, 42 R131). -/
theorem validFrame_buildFrame {cfg : Config} (hc : cfg.Specified) (dest src code : Byte) {data : List Byte}
    (hpos : 1 ≤ data.length) (hlen : data.length ≤ 255) :
    ValidFrame cfg.crcAlg (buildFrame cfg dest src code data) := by
  have hL : (byteOf (buildFrame cfg dest src code data) 4).toNat = data.length := by
    rw [byteOf_buildFrame_length hc, toNat_ofNat_length hlen]
  exact ⟨by rw [hL, buildFrame_length_specified hc], by rw [hL]; exact hpos, crc16_buildFrame cfg dest src code data⟩

/-- The checksum that a built frame carries is that of all its bytes before it (42 R140). -/
theorem checksum_buildFrame {cfg : Config} (hc : cfg.Specified) (dest src code : Byte) (data : List Byte) :
    u16le (byteOf (buildFrame cfg dest src code data) (8 + data.length))
        (byteOf (buildFrame cfg dest src code data) (9 + data.length)) =
      crc16 cfg.crcAlg ((buildFrame cfg dest src code data).take (data.length + 8)) := by
  obtain ⟨m, hm⟩ : ∃ m, m = frameHeader cfg.offsets dest src (BitVec.ofNat 8 data.length) code ++ data := ⟨_, rfl⟩
  have hlen : m.length = data.length + 8 := by
    rw [hm, List.length_append, frameHeader_length, offsets_specified hc]
    exact Nat.add_comm 8 _
  rw [buildFrame, ← hm, ← hlen, List.take_left, show 8 + data.length = m.length by omega,
    show 9 + data.length = m.length + 1 by omega]
  exact u16le_append_le16 m _

/-- The record of a built frame: every field is what ENCODE wrote there (42 R140). -/
theorem frameOf_buildFrame {cfg : Config} (hc : cfg.Specified) (dest src code : Byte) {data : List Byte}
    (hlen : data.length ≤ 255) :
    frameOf cfg (buildFrame cfg dest src code data) =
      { dst := dest
        src := src
        len := BitVec.ofNat 8 data.length
        fcode := code
        ftag := tagOf FunctionCodes.source code
        data := data
        checksum := crc16 cfg.crcAlg ((buildFrame cfg dest src code data).take (data.length + 8)) } := by
  have hdata : ((buildFrame cfg dest src code data).drop 8).take data.length = data := by
    rw [buildFrame_specified hc]
    exact List.take_left
  rw [frameOf_specified hc, byteOf_buildFrame_length hc, toNat_ofNat_length hlen, checksum_buildFrame hc, hdata,
    buildFrame_specified hc]
  rfl

/-! ### ENCODE -/

/-- The length check comes first, whatever the selector (42 R132). -/
theorem exec_encode_tooLong {data : List Byte} (h : 255 < data.length) (sel : FunSel) (dest : Byte) (s : State) :
    exec (.encode sel dest data) s = .next (raise .argumentOutOfRange s) := by
  rw [exec, execEncode, if_pos h]

/-- A selector that is not recognized fails the second check (42 R132). -/
theorem exec_encode_unrecognized {data : List Byte} (h : data.length ≤ 255) (n : BitVec 3) (dest : Byte) (s : State) :
    exec (.encode (.unrecognized n) dest data) s = .next (raise .invalidFunction s) := by
  rw [exec, execEncode, if_neg (Nat.not_lt.2 h)]
  rfl

/-- Past both checks, ENCODE answers the built frame (42 R130). -/
theorem exec_encode_ok {s : State} {sel : FunSel} {code : Byte} {data : List Byte} (h : data.length ≤ 255)
    (hcode : FunSel.code s.cfg.functionCodes sel = some code) (dest : Byte) :
    exec (.encode sel dest data) s =
      .next (respond .ok (.bytes (buildFrame s.cfg dest s.localId code data)) s) := by
  rw [exec, execEncode, if_neg (Nat.not_lt.2 h), hcode]

/-- A recognized name has a code (30 R65). -/
theorem exists_code {sel : FunSel} (h : ∀ n, sel ≠ .unrecognized n) (codes : FunctionCodes) :
    ∃ code, FunSel.code codes sel = some code := by
  cases sel with
  | unrecognized n => exact absurd rfl (h n)
  | reply | read | write | error => exact ⟨_, rfl⟩

/-- The four names' codes (30 R65). -/
theorem code_of_mem_source {sel : FunSel} {code : Byte}
    (h : (sel, code) ∈ [(FunSel.reply, (0x06 : Byte)), (.read, 0x0B), (.write, 0x0C), (.error, 0x15)]) :
    FunSel.code FunctionCodes.source sel = some code := by
  simp only [List.mem_cons, Prod.mk.injEq, List.not_mem_nil, or_false] at h
  rcases h with ⟨rfl, rfl⟩ | ⟨rfl, rfl⟩ | ⟨rfl, rfl⟩ | ⟨rfl, rfl⟩ <;> rfl

/-- ENCODE in a specified configuration, with the wire bytes of 42 R130. -/
theorem exec_encode_wire {s : State} {sel : FunSel} {code dest : Byte} {data m : List Byte} (hc : s.cfg.Specified)
    (h : data.length ≤ 255) (hcode : FunSel.code FunctionCodes.source sel = some code)
    (hm : m = [dest, 0x00, s.localId, 0x00, BitVec.ofNat 8 data.length, 0x00, 0x00, code] ++ data) :
    exec (.encode sel dest data) s = .next (respond .ok (.bytes (m ++ [(crc16 s.cfg.crcAlg m).setWidth 8,
      (crc16 s.cfg.crcAlg m >>> 8).setWidth 8])) s) := by
  have hcfg : FunSel.code s.cfg.functionCodes sel = some code := by rw [functionCodes_specified hc, hcode]
  rw [exec_encode_ok h hcfg, buildFrame_eq_wire hc hm]

/-- Settles O19: the length check, the selector check, and the built frame. -/
theorem encodeEffect : Obligations.EncodeEffect := by
  intro s sel dest data
  refine ⟨fun h => exec_encode_tooLong h sel dest s, ?_, ?_, ?_⟩
  · rintro n h rfl
    exact exec_encode_unrecognized h n dest s
  · intro h hsel
    obtain ⟨code, hcode⟩ := exists_code hsel s.cfg.functionCodes
    exact ⟨_, exec_encode_ok h hcode dest⟩
  · intro code m hc h hmem hm
    exact exec_encode_wire hc h (code_of_mem_source hmem) hm

/-! ### ENCODE's transfer -/

/-- A word of format E with its RSV bit clear is ENCODE (30 R71). -/
theorem decodeCmd_formatE {w : U16} (hopc : (opcOf w).toNat = 6) (hrsv : w.getLsbD 11 = false) (p : List Byte) :
    decodeCmd w p = .ok (.encode (FunSel.ofFsel (fselOf w)) (lowByteOf w) p) := by
  have hsel : Row.selects ⟨.encode, 0x6000, 0xF800, true⟩ w = true := by
    rw [Row.selects, beq_iff_eq, and_mask_formatE_eq_iff]
    exact ⟨hopc, hrsv⟩
  exact decodeCmd_ok_iff.2 ⟨_, by simp [opcodeTable], hsel, by simp, rfl⟩

/-- The selector numbers 4 to 7 name no function (30 R65). -/
theorem ofFsel_unrecognized {n : BitVec 3} (h : 4 ≤ n.toNat) : FunSel.ofFsel n = .unrecognized n :=
  FunSel.ofFsel_fsel (sel := .unrecognized n) (decide_eq_true h)

/-- The selector numbers 0 to 3 name the four functions (30 R65). -/
theorem ofFsel_ne_unrecognized {n : BitVec 3} (h : n.toNat < 4) (k : BitVec 3) : FunSel.ofFsel n ≠ .unrecognized k := by
  revert n k
  decide

/-- The code that a selector number stands for (30 R65). -/
theorem code_ofFsel (n : BitVec 3) :
    FunSel.code FunctionCodes.source (FunSel.ofFsel n) = ([0x06, 0x0B, 0x0C, 0x15] : List Byte)[n.toNat]? := by
  revert n
  decide

/-- Settles O20: the spelling is checked at the port, the rest by the command (42 R132). -/
theorem encodeChecksInOrder : Obligations.EncodeChecksInOrder := by
  intro s w p rest hi hb hopc
  have hready : ∀ st v, respond st v { s with inputs := rest } =
      { s with inputs := rest, out := s.out ++ [.response ⟨st, v⟩] } := respond_of_ready (by exact hb)
  have hstep (hrsv : w.getLsbD 11 = false) :
      step s = exec (.encode (FunSel.ofFsel (fselOf w)) (lowByteOf w) p) { s with inputs := rest } :=
    stepRunsTheDecodedCommand s w p rest _ hi hb (decodeCmd_formatE hopc hrsv p)
  refine ⟨?_, ?_, ?_, ?_, ?_⟩
  · intro hrsv
    exact illegalTransferChangesNoState s w p rest hi hb (.inr (.inl (.inr (.inr ⟨hopc, hrsv⟩))))
  · intro hrsv h
    rw [hstep hrsv, exec_encode_tooLong h, raise, hready]
  · intro hrsv h hsel
    rw [hstep hrsv, ofFsel_unrecognized hsel, exec_encode_unrecognized h, raise, hready]
  · intro hrsv h hsel
    obtain ⟨code, hcode⟩ := exists_code (ofFsel_ne_unrecognized hsel) s.cfg.functionCodes
    have hrun := exec_encode_ok (s := { s with inputs := rest }) h hcode (lowByteOf w)
    exact ⟨_, by rw [hstep hrsv, hrun, hready]⟩
  · intro code m hc hrsv h hcode hm
    rw [← extractLsb'_low_byte] at hm
    have hrun := exec_encode_wire (s := { s with inputs := rest }) hc h ((code_ofFsel _).trans hcode) hm
    rw [hstep hrsv, lowByteOf, hrun, hready]

/-- Settles O21: what ENCODE returns is a built frame. -/
theorem encodedFrameShape : Obligations.EncodedFrameShape := by
  intro s sel dest data v h
  obtain ⟨hlen, code, -, rfl⟩ := execEncode_ok h
  refine ⟨crc16_buildFrame s.cfg dest s.localId code data, fun hc => ?_⟩
  refine ⟨buildFrame_length_specified hc _ _ _ _, ?_⟩
  rw [byteOf_buildFrame_length hc, toNat_ofNat_length hlen, buildFrame_specified hc]
  exact ⟨rfl, rfl, rfl, rfl, rfl⟩

/-! ### DECODE -/

theorem ne_zero_of_toNat_pos {b : Byte} (h : 0 < b.toNat) : b ≠ 0 := by
  rintro rfl
  exact absurd h (by decide)

/-- L = 0 is LengthZero, whatever the other bytes are (42 R136, case 2). -/
theorem decodeFrame_lengthZero {cfg : Config} (hc : cfg.Specified) {w : List Byte} (hmin : 11 ≤ w.length)
    (hL : (byteOf w 4).toNat = 0) : decodeFrame cfg w = .error .lengthZero := by
  have hzero : byteOf w 4 = 0 := BitVec.eq_of_toNat_eq hL
  rw [decodeFrame_specified hc, if_neg (Nat.not_lt.2 hmin), if_pos hzero]

/-- A window with fewer than L + 10 bytes is FrameTooShort (42 R136, case 3). -/
theorem decodeFrame_incomplete {cfg : Config} (hc : cfg.Specified) {w : List Byte} (hmin : 11 ≤ w.length)
    (hL : 0 < (byteOf w 4).toNat) (hlen : w.length < (byteOf w 4).toNat + 10) :
    decodeFrame cfg w = .error .frameTooShort := by
  have hzero := ne_zero_of_toNat_pos hL
  rw [decodeFrame_specified hc, if_neg (Nat.not_lt.2 hmin), if_neg hzero, if_pos hlen]

/-- A complete window with another residue than zero is ChecksumInvalid (42 R136, case 4). -/
theorem decodeFrame_checksumInvalid {cfg : Config} (hc : cfg.Specified) {w : List Byte} (hmin : 11 ≤ w.length)
    (hL : 0 < (byteOf w 4).toNat) (hlen : (byteOf w 4).toNat + 10 ≤ w.length)
    (hcrc : crc16 CrcAlg.arc (w.take ((byteOf w 4).toNat + 10)) ≠ 0) :
    decodeFrame cfg w = .error .checksumInvalid := by
  have hzero := ne_zero_of_toNat_pos hL
  rw [decodeFrame_specified hc, if_neg (Nat.not_lt.2 hmin), if_neg hzero, if_neg (Nat.not_lt.2 hlen), if_pos hcrc]

/-- A complete window with residue zero is accepted (42 R136, case 5). -/
theorem decodeFrame_accepted {cfg : Config} (hc : cfg.Specified) {w : List Byte} (hmin : 11 ≤ w.length)
    (hL : 0 < (byteOf w 4).toNat) (hlen : (byteOf w 4).toNat + 10 ≤ w.length)
    (hcrc : crc16 CrcAlg.arc (w.take ((byteOf w 4).toNat + 10)) = 0) :
    decodeFrame cfg w = .ok (frameOf cfg w) := by
  have hzero := ne_zero_of_toNat_pos hL
  rw [decodeFrame_ok_iff_specified hc, crcAlg_specified hc]
  exact ⟨hmin, hzero, hlen, hcrc, rfl⟩

/-- DECODE answers Decode's error (42 R135). -/
theorem exec_decode_error {s : State} {w : List Byte} {e : DecodeError} (h : decodeFrame s.cfg w = .error e) :
    exec (.decode w) s = .next (raise e.status s) := by
  rw [exec, execDecode, h]

/-- DECODE answers Decode's frame (42 R135). -/
theorem exec_decode_ok {s : State} {w : List Byte} {f : Frame} (h : decodeFrame s.cfg w = .ok f) :
    exec (.decode w) s = .next (respond .ok (.frame f) s) := by
  rw [exec, execDecode, h]

/-- Settles O22: the five cases of Decode, answered by the command; the transfer runs it. -/
theorem decodeEffect : Obligations.DecodeEffect := by
  intro s w hc
  refine ⟨fun rest hi hb => step_of_readyInstr (i := .decode w) rfl hi hb, ?_, ?_, ?_, ?_, ?_⟩
  · intro hshort
    exact exec_decode_error (decodeFrame_short (by rwa [minMessageSize_specified hc]))
  · intro hmin hL
    exact exec_decode_error (decodeFrame_lengthZero hc hmin hL)
  · intro hmin hL hlen
    exact exec_decode_error (decodeFrame_incomplete hc hmin hL hlen)
  · intro hmin hL hlen hcrc
    exact exec_decode_error (decodeFrame_checksumInvalid hc hmin hL hlen hcrc)
  · intro hmin hL hlen hcrc
    rw [exec_decode_ok (decodeFrame_accepted hc hmin hL hlen hcrc), frameOf_specified hc, u16le_eq_ofNat,
      functionCodes_specified hc]
    rfl

/-! ### The round trip -/

/-- The names, codes and tags of the round trip (30 R64, R65). -/
theorem code_tagOf_of_mem_source {sel : FunSel} {code : Byte} {tag : FTag}
    (h : (sel, code, tag) ∈ [(FunSel.reply, (0x06 : Byte), FTag.reply), (.read, 0x0B, .read), (.write, 0x0C, .write),
      (.error, 0x15, .error)]) :
    FunSel.code FunctionCodes.source sel = some code ∧ tagOf FunctionCodes.source code = tag := by
  simp only [List.mem_cons, Prod.mk.injEq, List.not_mem_nil, or_false] at h
  rcases h with ⟨rfl, rfl, rfl⟩ | ⟨rfl, rfl, rfl⟩ | ⟨rfl, rfl, rfl⟩ | ⟨rfl, rfl, rfl⟩ <;> exact ⟨rfl, rfl⟩

/-- Settles O26: a built frame is valid, so Decode accepts it, and its record is what ENCODE wrote. -/
theorem decodeOfEncodedFrame : Obligations.DecodeOfEncodedFrame := by
  intro s sel code tag dest data hc hpos hlen hmem
  obtain ⟨hcode, htag⟩ := code_tagOf_of_mem_source hmem
  have hcfg : FunSel.code s.cfg.functionCodes sel = some code := by rw [functionCodes_specified hc, hcode]
  have haccept := decodeFrame_of_validFrame hc (validFrame_buildFrame hc dest s.localId code hpos hlen)
  refine ⟨buildFrame s.cfg dest s.localId code data, exec_encode_ok hlen hcfg dest, ?_⟩
  rw [exec_decode_ok haccept, frameOf_buildFrame hc _ _ _ hlen, htag]
  rfl

/-- A frame with no data is FrameTooShort on its own, and LengthZero before any other byte (42 R141). -/
theorem decodeFrame_emptyPayload {cfg : Config} (hc : cfg.Specified) {v : List Byte} (hlen : v.length = 10)
    (hL : (byteOf v 4).toNat = 0) :
    decodeFrame cfg v = .error .frameTooShort ∧ ∀ b x, decodeFrame cfg (v ++ b :: x) = .error .lengthZero := by
  constructor
  · exact decodeFrame_short (by rw [minMessageSize_specified hc]; omega)
  · intro b x
    apply decodeFrame_lengthZero hc
    · rw [List.length_append, List.length_cons]
      omega
    · rw [byteOf_append_left _ (by omega), hL]

/-- Settles O27: ten bytes with L = 0, alone or before other bytes, at any offset. -/
theorem emptyPayloadFrameIsNeverAccepted : Obligations.EmptyPayloadFrameIsNeverAccepted := by
  intro s sel dest v hc h
  obtain ⟨-, hshape⟩ := encodedFrameShape s sel dest [] v h
  obtain ⟨hlen, -, -, -, -, hL⟩ := hshape hc
  obtain ⟨halone, hbefore⟩ := decodeFrame_emptyPayload hc hlen hL
  refine ⟨hlen, halone, hbefore, ?_⟩
  intro m k x f hdrop
  rw [decodeAt, hdrop]
  cases x with
  | nil => simp [halone]
  | cons b x => simp [hbefore]

/-! ### What Decode does not depend on, and what it detects -/

/-- Settles O23: each test, and each field of the record, reads the first L + 10 bytes only. -/
theorem decodeIgnoresTrailingBytes : Obligations.DecodeIgnoresTrailingBytes := by
  intro cfg w x hc hmin hlen
  have hmin' : ¬ (w ++ x).length < 11 := by rw [List.length_append]; omega
  have hlen' : ¬ (w ++ x).length < (byteOf w 4).toNat + 10 := by rw [List.length_append]; omega
  rw [decodeFrame_specified hc, decodeFrame_specified hc, byteOf_append_left x (by omega : 4 < w.length),
    List.take_append_of_le_length hlen, frameOf_append hc hlen, if_neg hmin', if_neg hlen',
    if_neg (Nat.not_lt.2 hmin), if_neg (Nat.not_lt.2 hlen)]

/-- The record reads none of the reserved offsets (42 R137). -/
theorem frameOf_congr {cfg : Config} (hc : cfg.Specified) {w w' : List Byte}
    (h : ∀ i, i ∉ [1, 3, 5, 6] → w[i]? = w'[i]?) : frameOf cfg w = frameOf cfg w' := by
  have hbyte : ∀ i, i ∉ [1, 3, 5, 6] → byteOf w i = byteOf w' i := fun i hi => by rw [byteOf, byteOf, h i hi]
  have hbehind : ∀ i, 8 ≤ i → i ∉ [1, 3, 5, 6] := by
    intro i hi
    simp only [List.mem_cons, List.not_mem_nil, or_false]
    omega
  have hdrop : w.drop 8 = w'.drop 8 := by
    apply List.ext_getElem?
    intro i
    rw [List.getElem?_drop, List.getElem?_drop, h _ (hbehind _ (by omega))]
  rw [frameOf_specified hc, frameOf_specified hc, hbyte 0 (by decide), hbyte 2 (by decide), hbyte 4 (by decide),
    hbyte 7 (by decide), hdrop, hbyte (8 + _) (hbehind _ (by omega)),
    hbyte (9 + _) (hbehind _ (by omega))]

/-- Settles O25: an accepted window's answer is its record. -/
theorem reservedBytesAreNotReported : Obligations.ReservedBytesAreNotReported := by
  intro cfg w w' f f' hc h hf hf'
  obtain ⟨-, -, -, -, rfl⟩ := decodeFrame_ok_iff.1 hf
  obtain ⟨-, -, -, -, rfl⟩ := decodeFrame_ok_iff.1 hf'
  exact frameOf_congr hc h

/-! ### One changed byte -/

theorem byteOf_set_ne {i j : Nat} (h : i ≠ j) (w : List Byte) (b : Byte) : byteOf (w.set i b) j = byteOf w j := by
  rw [byteOf, byteOf, List.getElem?_set_ne h]

theorem byteOf_set_self {w : List Byte} {i : Nat} (h : i < w.length) (b : Byte) : byteOf (w.set i b) i = b := by
  simp [byteOf, h]

theorem byteOf_eq_getElem {w : List Byte} {i : Nat} (h : i < w.length) : byteOf w i = w[i] := by
  simp [byteOf, h]

/-- A sequence's first `k + 2` bytes are its first `k` and two more. -/
theorem take_add_two_bytes {w : List Byte} {k : Nat} (h : k + 2 ≤ w.length) :
    w.take (k + 2) = w.take k ++ [byteOf w k, byteOf w (k + 1)] := by
  have hk : k < w.length := by omega
  have hk' : k + 1 < w.length := by omega
  rw [byteOf_eq_getElem hk, byteOf_eq_getElem hk', List.take_succ_eq_append_getElem hk',
    List.take_succ_eq_append_getElem hk, List.append_assoc]
  rfl

/-- At an offset other than 4 another byte is detected by the residue of the same window (42 R139). -/
theorem decodeFrame_set_checksumInvalid {cfg : Config} (hc : cfg.Specified) {w : List Byte}
    (hw : ValidFrame cfg.crcAlg w) {i : Nat} {b : Byte} (h4 : i ≠ 4) (hi : i < w.length) (hb : b ≠ byteOf w i) :
    decodeFrame cfg (w.set i b) = .error .checksumInvalid := by
  obtain ⟨hmin, -⟩ := length_of_validFrame hw
  obtain ⟨hlen, hpos, hcrc⟩ := hw
  have hL : byteOf (w.set i b) 4 = byteOf w 4 := byteOf_set_ne h4 w b
  have hsize : (w.set i b).length = (byteOf (w.set i b) 4).toNat + 10 := by rw [List.length_set, hL, hlen]
  apply decodeFrame_checksumInvalid hc
  · rwa [List.length_set]
  · rwa [hL]
  · exact hsize.ge
  · rw [← hsize, List.take_length]
    exact singleByteChangeIsDetected w i b (crcAlg_specified hc ▸ hcrc) hi hb

/-- A smaller length byte is accepted when the shorter window ends in its own checksum (42 R139). -/
theorem decodeFrame_set_length_accepted {cfg : Config} (hc : cfg.Specified) {w : List Byte}
    (hw : ValidFrame cfg.crcAlg w) {b : Byte} (hpos : 0 < b.toNat) (hlt : b.toNat < (byteOf w 4).toNat)
    (hcrc : crc16 cfg.crcAlg ((w.set 4 b).take (b.toNat + 8)) =
      BitVec.ofNat 16 ((byteOf w (b.toNat + 8)).toNat + 256 * (byteOf w (b.toNat + 9)).toNat)) :
    decodeFrame cfg (w.set 4 b) = .ok (frameOf cfg (w.set 4 b)) := by
  obtain ⟨hmin, -⟩ := length_of_validFrame hw
  obtain ⟨hlen, -, -⟩ := hw
  have hL : byteOf (w.set 4 b) 4 = b := byteOf_set_self (by omega) b
  have hwindow : (w.set 4 b).take (b.toNat + 10) =
      (w.set 4 b).take (b.toNat + 8) ++ [byteOf w (b.toNat + 8), byteOf w (b.toNat + 9)] := by
    rw [take_add_two_bytes (by rw [List.length_set]; omega), byteOf_set_ne (by omega), byteOf_set_ne (by omega)]
  apply decodeFrame_accepted hc
  · rwa [List.length_set]
  · rwa [hL]
  · rw [hL, List.length_set]
    omega
  · rw [hL, hwindow, ← le16_u16le, u16le_eq_ofNat, ← hcrc, ← crcAlg_specified hc]
    exact crc16_append_le16_crc16 cfg.crcAlg _

/-- The frame of V-D12: its first data byte is followed by the checksum of the frame with the length byte 1. -/
def frameWithInnerChecksum : List Byte :=
  [0x01, 0x00, 0x63, 0x00, 0x03, 0x00, 0x00, 0x0B, 0x00, 0x64, 0x66, 0x23, 0xC0]

theorem validFrame_frameWithInnerChecksum : ValidFrame CrcAlg.arc frameWithInnerChecksum := by
  refine ⟨rfl, by decide, ?_⟩
  simp [frameWithInnerChecksum, crc16, crcStep, crcShifts, crcShift, CrcAlg.arc]

/-- The bytes at offsets 9 and 10, low byte first. -/
theorem crc16_frameWithInnerChecksum :
    crc16 CrcAlg.arc ((frameWithInnerChecksum.set 4 1).take 9) = 0x6664 := by
  simp [frameWithInnerChecksum, crc16, crcStep, crcShifts, crcShift, CrcAlg.arc]

/-- Settles O24: the residue detects every offset but 4; there the new length byte decides the case of R136. -/
theorem changedByteOfAValidFrame : Obligations.ChangedByteOfAValidFrame := by
  constructor
  · intro cfg w b hc hw
    obtain ⟨hmin, -⟩ := length_of_validFrame hw
    have hmin' : 11 ≤ (w.set 4 b).length := by rwa [List.length_set]
    have hL : byteOf (w.set 4 b) 4 = b := byteOf_set_self (by omega) b
    refine ⟨fun i h4 hi hb => decodeFrame_set_checksumInvalid hc hw h4 hi hb, ?_, ?_, ?_⟩
    · intro hgt
      apply decodeFrame_incomplete hc hmin'
      · rw [hL]
        omega
      · rw [hL, List.length_set, hw.1]
        omega
    · intro hzero
      exact decodeFrame_lengthZero hc hmin' (by rw [hL, hzero])
    · intro hpos hlt hcrc
      exact ⟨_, decodeFrame_set_length_accepted hc hw hpos hlt hcrc⟩
  · have hc : Config.default.Specified := by decide
    exact ⟨frameWithInnerChecksum, _, validFrame_frameWithInnerChecksum, by decide,
      decodeFrame_set_length_accepted hc validFrame_frameWithInnerChecksum (by decide) (by decide)
        crc16_frameWithInnerChecksum⟩

end Sys2Proof.Machine
end

section
/-! SUPPORT. The statements of spec/43_sync.md about one step: CHECK, SCAN, READ's answers, NEXT_FRAME's acceptance, the
transport reads, and what the scan cannot miss. -/

namespace Sys2Proof.Machine

/-! ### One step in CHECK, SCAN and READ -/

/-- With no reset next the block takes its own step first, and a pause passes with it (20 R46). -/
theorem step_of_ownStep {s : State} (hr : ownStepReady s = true) (hreset : takesReset s = false) :
    step s = blockStep { s with inputs := afterPause s } := by
  cases hi : s.inputs with
  | nil => simp only [step, afterPause, hi]; rw [← hi]
  | cons i rest =>
    cases i with
    | reset => simp [takesReset, hi] at hreset
    | wait => simp only [step, afterPause, hi]
    | transfer | answer | stream => simp only [step, afterPause, hi, hr, if_true]; rw [← hi]

theorem blockStep_check {s : State} (hb : s.cmdBusy = true) (hs : s.syncState = .check) :
    blockStep s = .next (checkStep s) := by
  rw [blockStep, if_pos hb, hs]

theorem blockStep_scan {s : State} (hb : s.cmdBusy = true) (hs : s.syncState = .scan) : blockStep s = scanStep s := by
  rw [blockStep, if_pos hb, hs]

theorem step_check {s : State} (hb : s.cmdBusy = true) (hs : s.syncState = .check) (hreset : takesReset s = false) :
    step s = .next (checkStep { s with inputs := afterPause s }) := by
  rw [step_of_ownStep (by simp [ownStepReady, hb, hs]) hreset]
  exact blockStep_check hb hs

theorem step_scan {s : State} (hb : s.cmdBusy = true) (hs : s.syncState = .scan) (hreset : takesReset s = false) :
    step s = scanStep { s with inputs := afterPause s } := by
  rw [step_of_ownStep (by simp [ownStepReady, hb, hs]) hreset]
  exact blockStep_scan hb hs

/-- What a step does with an answer next (20 R46, 43 R157). -/
theorem step_of_answer {s : State} {n : Nat} {a : Answer} {rest : List Input}
    (hi : s.inputs = .answer n a :: rest) :
    step s = if ownStepReady s then blockStep s else receiveAnswer n a { s with inputs := rest } := by
  rw [step, hi]

/-- In READ the block has no step of its own (43 R153). -/
theorem ownStepReady_read {s : State} (hs : s.syncState = .read) : ownStepReady s = false := by
  simp [ownStepReady, hs]

/-- So an answer that is next in READ is received. -/
theorem step_of_answer_read {s : State} {n : Nat} {a : Answer} {rest : List Input} (hs : s.syncState = .read)
    (hi : s.inputs = .answer n a :: rest) : step s = receiveAnswer n a { s with inputs := rest } := by
  rw [step_of_answer hi, ownStepReady_read hs]; rfl

/-- In READ the answer to the outstanding read is taken (43 R154 to R158). -/
theorem step_read_answer {s : State} {a : Answer} {rest : List Input} (hb : s.cmdBusy = true)
    (hs : s.syncState = .read) (hi : s.inputs = .answer s.reads a :: rest) (hz : Answer.size a ≤ s.cfg.readMax) :
    step s = .next (takeAnswer a { s with inputs := rest }) := by
  rw [step_of_answer_read hs hi]
  exact receiveAnswer_outstanding (s := { s with inputs := rest }) hb hs hz

/-! ### CHECK -/

theorem mustRead_iff {s : State} : mustRead s = true ↔ s.buf = [] ∨ s.short = true := by
  simp [mustRead]

theorem mustRead_eq_false_iff {s : State} : mustRead s = false ↔ s.buf ≠ [] ∧ s.short = false := by
  simp [mustRead]

/-- 43 R152, first branch. -/
theorem checkStep_of_mustRead {s : State} (h : mustRead s = true) : checkStep s = startRead s := if_pos h

/-- 43 R152, second branch. -/
theorem checkStep_of_tooFew {s : State} (h : mustRead s = false) (hlen : s.buf.length < s.cfg.minMessageSize) :
    checkStep s = startRead (setShort s) := by
  rw [checkStep, h, if_pos hlen]; rfl

/-- 43 R152, third branch. -/
theorem checkStep_of_enough {s : State} (h : mustRead s = false) (hlen : s.cfg.minMessageSize ≤ s.buf.length) :
    checkStep s = scanningAt 0 s := by
  rw [checkStep, h, if_neg (Nat.not_lt.2 hlen)]; rfl

/-- Settles O32: the three branches of R152, after the pause. -/
theorem checkStepRule : Obligations.CheckStepRule := by
  intro s hc hb hs hreset
  rw [step_check hb hs hreset]
  refine ⟨fun hread => ?_, fun hne hshort hlen => ?_, fun hshort hlen => ?_⟩
  · exact congrArg _ (checkStep_of_mustRead (mustRead_iff.2 hread))
  · exact congrArg _ (checkStep_of_tooFew (mustRead_eq_false_iff.2 ⟨hne, hshort⟩) (hc.1.symm ▸ hlen))
  · have hne : s.buf ≠ [] := List.ne_nil_of_length_pos (by omega)
    exact congrArg _ (checkStep_of_enough (mustRead_eq_false_iff.2 ⟨hne, hshort⟩) (hc.1.symm ▸ hlen))

/-! ### SCAN -/

/-- 43 R159. -/
theorem scanStep_of_match {s : State} {f : Frame} (h : decodeAt s.cfg s.buf s.cur = .ok f) :
    scanStep s = .next (scanMatch f s) := by
  rw [scanStep, h]

/-- 43 R160. -/
theorem scanStep_of_offsetLeft {s : State} {e : DecodeError} (h : decodeAt s.cfg s.buf s.cur = .error e)
    (hlt : s.cur + s.cfg.minMessageSize < s.buf.length) : scanStep s = .next { s with cur := s.cur + 1 } := by
  rw [scanStep, h]; exact if_pos hlt

/-- 43 R161. -/
theorem scanStep_of_lastOffset {s : State} {e : DecodeError} (h : decodeAt s.cfg s.buf s.cur = .error e)
    (hend : s.cur + s.cfg.minMessageSize = s.buf.length) :
    scanStep s = .next (setShort { s with cur := 0, syncState := .check }) := by
  rw [scanStep, h]
  exact (if_neg (Nat.not_lt.2 hend.ge)).trans (if_pos hend)

/-- Settles O33: the three outcomes of the trial decode, after the pause. -/
theorem scanStepRule : Obligations.ScanStepRule := by
  intro s hc hb hs hreset
  rw [step_scan hb hs hreset]
  refine ⟨fun f hf => ?_, fun e he hlt => ?_, fun e he hend => ?_⟩
  · rw [scanStep_of_match (s := { s with inputs := afterPause s }) hf, scanMatch, frameSize_specified hc,
      ← Nat.add_assoc]; rfl
  · exact scanStep_of_offsetLeft (s := { s with inputs := afterPause s }) he (hc.1 ▸ hlt)
  · exact scanStep_of_lastOffset (s := { s with inputs := afterPause s }) he (hc.1 ▸ hend)

/-! ### READ -/

/-- A non-empty chunk that fits is appended (43 R155). -/
theorem takeAnswer_fits {c : List Byte} (hne : c ≠ []) {s : State}
    (h : Memory.fits s.cfg.bufCap s.buf c.length = true) :
    takeAnswer (.chunk c) s = { appendChunk c s with syncState := .check } := by
  cases c with
  | nil => exact absurd rfl hne
  | cons b c => exact if_pos h

/-- A chunk that does not fit is discarded (43 R158). -/
theorem takeAnswer_overflow {c : List Byte} (hne : c ≠ []) {s : State}
    (h : ¬ Memory.fits s.cfg.bufCap s.buf c.length = true) :
    takeAnswer (.chunk c) s = endStream .ovf .bufferOverflow s := by
  cases c with
  | nil => exact absurd rfl hne
  | cons b c => exact if_neg h

/-- Settles O34: the step takes the answer, and each answer has its rule. -/
theorem readAnswerRules : Obligations.ReadAnswerRules := by
  intro s a rest hb hs hi
  refine ⟨?_, ?_, ?_, ?_⟩
  · rintro rfl
    exact step_read_answer hb hs hi (Nat.zero_le _)
  · rintro (rfl | rfl) <;> exact step_read_answer hb hs hi (Nat.zero_le _)
  · rintro c rfl hpos hmax hcap
    rw [step_read_answer hb hs hi hmax]
    exact congrArg _ (takeAnswer_fits (List.ne_nil_of_length_pos hpos) ((Memory.fits_iff _ _ _).2 hcap))
  · rintro c cap rfl hpos hmax hcap hover
    have hfits : ¬ Memory.fits s.cfg.bufCap s.buf c.length = true := fun h => by
      have := (Memory.fits_iff _ _ _).1 h cap hcap
      omega
    rw [step_read_answer hb hs hi hmax]
    exact congrArg _ (takeAnswer_overflow (List.ne_nil_of_length_pos hpos) hfits)

/-- Settles O35: the step of a block that waits is to the same state. -/
theorem readWaitsForTheTransport : Obligations.ReadWaitsForTheTransport := by
  intro s hs hi k
  have hstep : step s = .next s := by
    rw [step, hi]
    exact blockStep_read hs
  induction k with
  | zero => rfl
  | succ k ih => rw [runSteps_succ hstep, ih]

/-- Settles O36: with no step of its own the block receives the answer, which keeps neither duty. -/
theorem unsolicitedAnswerHasNoStep : Obligations.UnsolicitedAnswerHasNoStep := by
  intro s n a rest hi hr
  rw [step_of_answer hi, hr]
  constructor
  · intro hlong
    simp [receiveAnswer, hlong]
  · intro hsize hs hn
    simp [receiveAnswer, Nat.not_lt.2 hsize, hs, hn]

/-! ### NEXT_FRAME at acceptance -/

/-- Settles O31: the port runs the command, and each SYNC_STATE has its branch of R151. -/
theorem nextFrameAcceptance : Obligations.NextFrameAcceptance := by
  intro s
  refine ⟨fun rest hi hb => step_of_readyInstr (i := .nextFrame) rfl hi hb, ?_, ?_, ?_, ?_⟩ <;>
  · intro hs
    cases s
    cases hs
    rfl

/-! ### Transport reads -/

/-- A step's outputs hold no transport read, and none is counted. -/
def IssuesNoRead (s t : State) : Prop :=
  t.reads = s.reads ∧ ∀ n m, Output.transportRead n m ∈ t.out → Output.transportRead n m ∈ s.out

/-- A step's output is the one read of READ_MAX bytes that it enters READ with (43 R153). -/
def EntersRead (s t : State) : Prop :=
  s.syncState ≠ .read ∧ t.syncState = .read ∧ t.reads = s.reads + 1 ∧
    t.out = s.out ++ [.transportRead (s.reads + 1) s.cfg.readMax]

theorem issuesNoRead_of_eq {s t : State} (hreads : t.reads = s.reads) (hout : t.out = s.out) : IssuesNoRead s t :=
  ⟨hreads, fun _ _ h => hout ▸ h⟩

theorem issuesNoRead_of_response {s t : State} {r : Response} (hreads : t.reads = s.reads)
    (hout : t.out = s.out ++ [.response r]) : IssuesNoRead s t := by
  refine ⟨hreads, fun n m h => ?_⟩
  simpa [hout] using h

/-- CHECK is the one step of the block that enters READ. -/
theorem blockStep_reads {s t : State} (h : blockStep s = .next t) :
    EntersRead s t ∨ ((t.syncState = .read → s.syncState = .read) ∧ IssuesNoRead s t) := by
  rcases blockStep_cases h with ⟨-, rfl⟩ | ⟨-, hs, rfl⟩ | ⟨-, -, f, -, rfl⟩ | ⟨-, hs, -, -, rfl⟩ | ⟨-, -, -, -, rfl⟩
  · exact .inr ⟨id, issuesNoRead_of_eq rfl rfl⟩
  · rcases checkStep_cases s with ⟨-, heq⟩ | ⟨-, -, -, heq⟩ | ⟨-, -, -, heq⟩
    · exact .inl (heq ▸ ⟨by simp [hs], rfl, rfl, rfl⟩)
    · exact .inl (heq ▸ ⟨by simp [hs], rfl, rfl, rfl⟩)
    · exact .inr (heq ▸ ⟨by simp, issuesNoRead_of_eq rfl rfl⟩)
  · exact .inr ⟨by simp, issuesNoRead_of_response rfl (scanMatch_out f s)⟩
  · exact .inr ⟨by simp [hs], issuesNoRead_of_eq rfl rfl⟩
  · exact .inr ⟨by simp, issuesNoRead_of_eq rfl rfl⟩

theorem exec_reads {i : Instr} {s t : State} (h : exec i s = .next t) :
    (t.syncState = .read → s.syncState = .read) ∧ IssuesNoRead s t := by
  rcases exec_cases h with ⟨-, -, rfl⟩ | ⟨st, v, rfl⟩
  · exact ⟨by simp, issuesNoRead_of_eq rfl rfl⟩
  · exact ⟨by simp, issuesNoRead_of_response (r := ⟨st, v⟩) (by simp) (by simp)⟩

theorem takeAnswer_reads (a : Answer) (s : State) : IssuesNoRead s (takeAnswer a s) := by
  rcases takeAnswer_cases a s with ⟨y, e, -, heq⟩ | ⟨c, -, -, -, heq⟩
  · exact heq ▸ issuesNoRead_of_response rfl (endStream_out y e s)
  · exact heq ▸ issuesNoRead_of_eq rfl rfl

/-- Every step enters READ with its one read, or issues none. -/
theorem step_reads {s t : State} (h : step s = .next t) :
    EntersRead s t ∨ ((t.syncState = .read → s.syncState = .read) ∧ IssuesNoRead s t) := by
  rcases step_cases h with ⟨rest, -, rfl⟩ | ⟨-, l, -, hblock⟩ | ⟨w, p, rest, e, -, -, -, rfl⟩ |
    ⟨w, p, rest, i, -, -, -, he⟩ | ⟨a, l, -, -, hs, -, rfl⟩ | ⟨n, a, rest, -, -, -, rfl⟩
  · exact .inr ⟨by simp, issuesNoRead_of_eq rfl rfl⟩
  · exact blockStep_reads (s := { s with inputs := l }) hblock
  · exact .inr ⟨id, issuesNoRead_of_response rfl (raise_out _ _)⟩
  · exact .inr (exec_reads (s := { s with inputs := rest }) he)
  · exact .inr ⟨fun _ => hs, takeAnswer_reads a _⟩
  · exact .inr ⟨id, issuesNoRead_of_eq rfl rfl⟩

/-- Settles O37: each step does one of the two. -/
theorem oneReadOnEnteringRead : Obligations.OneReadOnEnteringRead := by
  intro s t h
  rcases step_reads h with ⟨hs, ht, hreads, hout⟩ | ⟨hstay, hnone⟩
  · exact ⟨fun _ => ⟨hreads, hout⟩, fun hno => absurd ⟨hs, ht⟩ hno⟩
  · exact ⟨fun ⟨hs, ht⟩ => absurd (hstay ht) hs, fun _ => hnone⟩

/-! ### What the scan cannot miss -/

/-- Settles O38: fewer than MIN_MESSAGE_SIZE bytes are left at the offset. -/
theorem scanLimitLosesNoFrame : Obligations.ScanLimitLosesNoFrame := by
  intro cfg m k hc hlen
  have hmin := hc.1
  exact decodeFrame_short (by rw [List.length_drop]; omega)

/-- While a read is outstanding BUF holds no frame: 10 R31 (b), and the range limit of 43 R163. -/
theorem noFrame_of_read {s : State} (h : BlockInv s) (hs : s.syncState = .read) : NoFrame s := by
  intro k hk
  have hrange := decodesAt_inRange h.config hk
  have hmin := h.config.1
  exact h.sync.b hs (List.ne_nil_of_length_pos (by omega)) k hrange hk

/-- In CHECK, READ and SCAN a NEXT_FRAME is in flight (10 R24, R28). -/
theorem cmdBusy_of_inFlight {s : State} (h : BlockInv s) (hs : s.syncState.inFlight = true) : s.cmdBusy = true :=
  h.busy.trans hs

/-- Settles O39: the answer leaves BUF as it is, which holds no frame. -/
theorem endOfStreamLosesNoFrame : Obligations.EndOfStreamLosesNoFrame := by
  intro s a rest h hs hi ha
  have hb := cmdBusy_of_inFlight h (by rw [hs]; rfl)
  have hno : NoFrame s := noFrame_of_read h hs
  rcases ha with rfl | rfl <;>
    exact ⟨_, step_read_answer hb hs hi (Nat.zero_le _), rfl, rfl, noFrame_congr rfl rfl hno⟩

/-- Settles O40: the window's L + 10 bytes, at most 265, all stand before the appended bytes. -/
theorem completeWindowIsSettled : Obligations.CompleteWindowIsSettled := by
  intro cfg m c k hc hlen
  rw [hc.2.2.2.1] at hlen
  have hL := (byteOf (m.drop k) 4).isLt
  have hwindow : 265 ≤ (m.drop k).length := by rw [List.length_drop]; omega
  rw [decodeAt, decodeAt, List.drop_append_of_le_length (by omega)]
  exact decodeIgnoresTrailingBytes cfg _ c hc (by omega) (by omega)

end Sys2Proof.Machine
end

section
/-! SUPPORT. The block's own steps from CHECK to READ or IDLE, which are one pass of the source's loop, and the
machine's run, which is the loop's (spec/43_sync.md R162). -/

namespace Sys2Proof.Machine

/-! ### The loop's scan -/

theorem firstFrame_some {cfg : Config} {m : List Byte} {k n j : Nat} {f : Frame}
    (h : firstFrame cfg m k n = some (j, f)) :
    j < k + n ∧ decodeAt cfg m j = .ok f ∧ ∀ i, k ≤ i → i < j → ∀ g, decodeAt cfg m i ≠ .ok g := by
  induction n generalizing k with
  | zero => simp [firstFrame] at h
  | succ n ih =>
    cases hd : decodeAt cfg m k with
    | ok g =>
      simp only [firstFrame, hd, Option.some.injEq, Prod.mk.injEq] at h
      obtain ⟨rfl, rfl⟩ := h
      exact ⟨by omega, hd, fun i hle hlt => by omega⟩
    | error e =>
      simp only [firstFrame, hd] at h
      obtain ⟨hj, hf, hbelow⟩ := ih h
      refine ⟨by omega, hf, fun i hle hlt g => ?_⟩
      rcases Nat.eq_or_lt_of_le hle with rfl | hgt
      · simp [hd]
      · exact hbelow i hgt hlt g

theorem firstFrame_none {cfg : Config} {m : List Byte} {k n : Nat} (h : firstFrame cfg m k n = none) :
    ∀ i, k ≤ i → i < k + n → ∀ g, decodeAt cfg m i ≠ .ok g := by
  induction n generalizing k with
  | zero => intro i hle hlt; omega
  | succ n ih =>
    intro i hle hlt g
    cases hd : decodeAt cfg m k with
    | ok f => simp [firstFrame, hd] at h
    | error e =>
      simp only [firstFrame, hd] at h
      rcases Nat.eq_or_lt_of_le hle with rfl | hgt
      · simp [hd]
      · exact ih h i hgt (by omega) g

/-- The state in which the loop returns the frame `f` found at offset `k` (43 R162). -/
def loopReturn (k : Nat) (f : Frame) (s : State) : State :=
  respond .ok (.frame f)
    { s with buf := Memory.consume s.buf (k + frameSize s.cfg.offsets f.len), syncState := .idle }

/-- The loop returns the frame at the lowest offset that decodes. -/
theorem loopScan_some {s t : State} (h : loopScan s = some t) :
    ∃ k f, decodeAt s.cfg s.buf k = .ok f ∧ (∀ i, i < k → ¬ decodesAt s i) ∧ t = loopReturn k f s := by
  unfold loopScan scanAll at h
  split at h
  · rename_i k f hscan
    split at hscan
    · obtain ⟨-, hf, hbelow⟩ := firstFrame_some hscan
      exact ⟨k, f, hf, fun i hi ⟨g, hg⟩ => hbelow i (Nat.zero_le i) hi g hg, (Option.some.inj h).symm⟩
    · cases hscan
  · cases h

/-- The loop's scan misses no frame. -/
theorem noFrame_of_loopScan {s : State} (hc : s.cfg.Specified) (h : loopScan s = none) : NoFrame s := by
  rintro k ⟨g, hg⟩
  have hrange := decodesAt_inRange hc ⟨g, hg⟩
  have hscan : scanAll s.cfg s.buf = none := by
    cases hs : scanAll s.cfg s.buf with
    | none => rfl
    | some p => simp [loopScan, hs] at h
  rw [scanAll, if_pos (by omega)] at hscan
  exact firstFrame_none hscan k (Nat.zero_le k) (by omega) g hg

theorem loopScan_of_noFrame {s : State} (h : NoFrame s) : loopScan s = none := by
  cases ht : loopScan s with
  | none => rfl
  | some t =>
    obtain ⟨k, f, hf, -⟩ := loopScan_some ht
    exact absurd ⟨f, hf⟩ (h k)

/-! ### From CHECK to READ or IDLE -/

/-- Where the block's own steps lead from CHECK, in the terms of the loop (43 R162): to a read, or to the frame's
return. -/
def stretchEnd (s : State) : State :=
  if mustRead s then startRead s else (loopScan s).getD (startRead (setShort s))

theorem stretchEnd_of_mustRead {s : State} (h : mustRead s = true) : stretchEnd s = startRead s := if_pos h

theorem stretchEnd_of_scan {s : State} (h : mustRead s = false) :
    stretchEnd s = (loopScan s).getD (startRead (setShort s)) := by
  rw [stretchEnd, h]; rfl

theorem stretchEnd_rest (s : State) : (stretchEnd s).inputs = s.inputs ∧
    ((stretchEnd s).syncState = .read ∨ (stretchEnd s).syncState = .idle) := by
  cases hm : mustRead s with
  | true => rw [stretchEnd_of_mustRead hm]; exact ⟨rfl, .inl rfl⟩
  | false =>
    rw [stretchEnd_of_scan hm]
    cases ht : loopScan s with
    | none => exact ⟨rfl, .inl rfl⟩
    | some t =>
      obtain ⟨k, f, -, -, rfl⟩ := loopScan_some ht
      exact ⟨rfl, .inr rfl⟩

section
variable {s : State} (hb : s.cmdBusy = true) (hs : s.syncState = .check) (hu : undisturbed s = true)
include hb hs hu

/-- CHECK reads in one step (43 R152). -/
theorem step_check_undisturbed : step s = .next (checkStep s) := by
  rw [step_of_ownStepReady (by simp [ownStepReady, hb, hs]) hu, blockStep_check hb hs]

/-- The last offset's failure ends the scan (43 R161). -/
theorem step_scanningAt_last (h0 : s.cur = 0) {k : Nat} (h : ¬ decodesAt s k)
    (hend : k + s.cfg.minMessageSize = s.buf.length) : step (scanningAt k s) = .next (setShort s) := by
  obtain ⟨e, he⟩ := decodeFrame_error_of (w := s.buf.drop k) fun f hf => h ⟨f, hf⟩
  have hhome : { scanningAt k s with cur := 0, syncState := .check } = s := by
    rw [← h0, ← hs]; rfl
  rw [step_scanningAt hb hu, scanStep_of_lastOffset (s := scanningAt k s) he hend, hhome]

/-- A scan that finds a frame ends with its return (43 R159, R160). -/
theorem runSteps_scan_match (hc : s.cfg.Specified) (h0 : s.cur = 0) (hm : mustRead s = false) {k : Nat} {f : Frame}
    (hf : decodeAt s.cfg s.buf k = .ok f) (hbelow : ∀ i, i < k → ¬ decodesAt s i) :
    runSteps (k + 1 + 1) s = .next (loopReturn k f s) := by
  obtain ⟨-, hshort⟩ := mustRead_eq_false_iff.1 hm
  have hrange := decodesAt_inRange hc ⟨f, hf⟩
  have hreturn : scanMatch f (scanningAt k s) = loopReturn k f s := by
    rw [scanMatch, ← h0]; rfl
  rw [runSteps_succ (step_check_toScan hc hb hs hu hshort (by omega)),
    runSteps_add (runSteps_scan_garbage hb hu hrange hbelow) 1, runSteps_succ (step_scanningAt_match hb hu hf),
    runSteps_zero, hreturn]

/-- A scan that finds none ends with SHORT set and a read (43 R160, R161, R152). -/
theorem runSteps_scan_noFrame (hc : s.cfg.Specified) (h0 : s.cur = 0) (hm : mustRead s = false)
    (hlen : s.cfg.minMessageSize ≤ s.buf.length) (hno : NoFrame s) :
    runSteps (s.buf.length - s.cfg.minMessageSize + 1 + 1 + 1) s = .next (startRead (setShort s)) := by
  obtain ⟨-, hshort⟩ := mustRead_eq_false_iff.1 hm
  have hagain : step (setShort s) = .next (startRead (setShort s)) := by
    rw [step_check_undisturbed (s := setShort s) hb hs hu, checkStep_of_mustRead (mustRead_iff.2 (.inr rfl))]
  rw [runSteps_succ (step_check_toScan hc hb hs hu hshort hlen),
    runSteps_add (runSteps_scan_garbage hb hu (by omega) fun k _ => hno k) 2,
    runSteps_succ (step_scanningAt_last hb hs hu h0 (hno _) (by omega)), runSteps_succ hagain, runSteps_zero]

/-- From CHECK the block's own steps compute what the loop's next pass computes, in at most
`|BUF| - MIN_MESSAGE_SIZE + 3` of them (43 R162). -/
theorem runSteps_stretch (hc : s.cfg.Specified) (h0 : s.cur = 0) :
    ∃ n, n ≤ s.buf.length - s.cfg.minMessageSize + 3 ∧ runSteps n s = .next (stretchEnd s) := by
  have hcheck := step_check_undisturbed hb hs hu
  cases hm : mustRead s with
  | true =>
    rw [checkStep_of_mustRead hm] at hcheck
    exact ⟨1, by omega, by rw [runSteps_succ hcheck, stretchEnd_of_mustRead hm, runSteps_zero]⟩
  | false =>
    rw [stretchEnd_of_scan hm]
    cases ht : loopScan s with
    | some t =>
      obtain ⟨k, f, hf, hbelow, rfl⟩ := loopScan_some ht
      have hrange := decodesAt_inRange hc ⟨f, hf⟩
      exact ⟨_, by omega, runSteps_scan_match hb hs hu hc h0 hm hf hbelow⟩
    | none =>
      rcases Nat.lt_or_ge s.buf.length s.cfg.minMessageSize with hfew | hlen
      · rw [checkStep_of_tooFew hm hfew] at hcheck
        exact ⟨1, by omega, by rw [runSteps_succ hcheck, runSteps_zero]; rfl⟩
      · exact ⟨_, by omega, runSteps_scan_noFrame hb hs hu hc h0 hm hlen (noFrame_of_loopScan hc ht)⟩

end

/-- Settles O42: the stretch from CHECK ends in READ or IDLE within the bound. -/
theorem stretchIsBounded : Obligations.StretchIsBounded := by
  intro s h hs hu
  have hb := cmdBusy_of_inFlight h (by rw [hs]; rfl)
  have h0 : s.cur = 0 := h.cursorHome (by simp [hs])
  obtain ⟨n, hn, hrun⟩ := runSteps_stretch hb hs hu h.config h0
  exact ⟨n, _, hn, hrun, stretchEnd_rest s⟩

/-! ### The machine and the source's loop -/

/-- The block gets from one state to the other by its steps. -/
def Reaches (s t : State) : Prop := ∃ n, runSteps n s = .next t

theorem Reaches.refl (s : State) : Reaches s s := ⟨0, rfl⟩

theorem Reaches.trans {s t u : State} : Reaches s t → Reaches t u → Reaches s u
  | ⟨j, hj⟩, ⟨k, hk⟩ => ⟨j + k, by rw [runSteps_add hj, hk]⟩

theorem Reaches.of_step {s t : State} (h : step s = .next t) : Reaches s t :=
  ⟨1, by rw [runSteps_succ h, runSteps_zero]⟩

/-- The state with those answers to its coming reads next at the port. -/
def fedWith (answers : List Answer) (s : State) : State :=
  { s with inputs := numberedAnswers (s.reads + 1) answers }

theorem undisturbed_fedWith (answers : List Answer) (s : State) : undisturbed (fedWith answers s) = true := by
  cases answers <;> rfl

/-- The loop's scan does not look at the ports, nor at SYNC_STATE. -/
theorem loopScan_fedWith (answers : List Answer) (y : SyncState) (s : State) :
    loopScan { fedWith answers s with syncState := y } = (loopScan s).map (fedWith answers) := by
  unfold loopScan
  show (match scanAll s.cfg s.buf with | some (k, f) => _ | none => none) = _
  cases scanAll s.cfg s.buf <;> rfl

/-- The loop's read, answered with a non-empty chunk that fits: the loop goes on at its top (43 R162). -/
theorem readLoop_chunk {c : List Byte} (hne : c ≠ []) (rest : List Answer) (s : State) :
    readLoop (.chunk c :: rest) s = if Memory.fits s.cfg.bufCap s.buf c.length then
      topLoop rest (appendChunk c (startRead s)) else (endStream .ovf .bufferOverflow (startRead s), rest) := by
  cases c with
  | nil => exact absurd rfl hne
  | cons b c =>
    have hm : mustRead (appendChunk (b :: c) (startRead s)) = false := by
      simp [mustRead]
    simp only [readLoop, topLoop, hm]
    rfl

/-- What the loop keeps from its top to its reads: NEXT_FRAME is in flight, no scan is under way, and the answers to
come keep the transport's duty. -/
structure Looping (answers : List Answer) (s : State) : Prop where
  config : s.cfg.Specified
  busy : s.cmdBusy = true
  home : s.cur = 0
  sized : ∀ a, a ∈ answers → Answer.size a ≤ s.cfg.readMax

/-- From the read that the loop issues, the machine reaches the state the loop ends in. -/
def ReadAgrees (answers : List Answer) : Prop :=
  ∀ s, Looping answers s →
    Reaches (startRead (fedWith answers s)) (fedWith (readLoop answers s).2 (readLoop answers s).1)

/-- If the two agree from a read on, they agree from the loop's top, which is the machine's CHECK. -/
theorem reaches_topLoop {answers : List Answer} (hread : ReadAgrees answers) {s : State} (h : Looping answers s) :
    Reaches { fedWith answers s with syncState := .check }
      (fedWith (topLoop answers s).2 (topLoop answers s).1) := by
  obtain ⟨hc, hb, h0, hz⟩ := h
  obtain ⟨n, -, hrun⟩ := runSteps_stretch (s := { fedWith answers s with syncState := .check }) hb rfl
    (undisturbed_fedWith answers s) hc h0
  refine Reaches.trans ⟨n, hrun⟩ ?_
  cases hm : mustRead s with
  | true =>
    rw [stretchEnd_of_mustRead (s := { fedWith answers s with syncState := .check }) hm, topLoop, if_pos hm]
    exact hread s ⟨hc, hb, h0, hz⟩
  | false =>
    rw [stretchEnd_of_scan (s := { fedWith answers s with syncState := .check }) hm, loopScan_fedWith, topLoop, hm]
    cases hscan : loopScan s with
    | some t => exact Reaches.refl _
    | none => exact hread (setShort s) ⟨hc, hb, h0, hz⟩

/-- Both take the same answers: an end or an overflow ends both, and after a chunk that fits both go on at the top. -/
theorem readAgrees (answers : List Answer) : ReadAgrees answers := by
  induction answers with
  | nil => exact fun s _ => Reaches.refl _
  | cons a rest ih =>
    intro s ⟨hc, hb, h0, hz⟩
    have hstep : step (startRead (fedWith (a :: rest) s)) = .next (takeAnswer a (fedWith rest (startRead s))) :=
      step_read_answer (s := startRead (fedWith (a :: rest) s)) hb rfl rfl (hz a List.mem_cons_self)
    refine (Reaches.of_step hstep).trans ?_
    match a with
    | .error | .fin | .chunk [] => exact Reaches.refl _
    | .chunk (b :: c) =>
      have hne := List.cons_ne_nil b c
      rw [readLoop_chunk hne]
      by_cases hfits : Memory.fits s.cfg.bufCap s.buf (b :: c).length = true
      · rw [if_pos hfits, takeAnswer_fits (s := fedWith rest (startRead s)) hne hfits]
        exact reaches_topLoop ih (s := appendChunk (b :: c) (startRead s))
          ⟨hc, hb, h0, fun a ha => hz a (List.mem_cons_of_mem _ ha)⟩
      · rw [if_neg hfits, takeAnswer_overflow (s := fedWith rest (startRead s)) hne hfits]
        exact Reaches.refl _

/-- From IDLE `NextFrame()` is the loop (43 R162). -/
theorem sourceNextFrame_idle {s : State} (hs : s.syncState = .idle) (answers : List Answer) :
    sourceNextFrame answers s = topLoop answers { s with cmdBusy := true } := by
  cases s
  cases hs
  rfl

/-- Settles O43: NEXT_FRAME's acceptance, then the loop from its top; in a terminal state the acceptance is all. -/
theorem stepsEqualTheSourceLoop : Obligations.StepsEqualTheSourceLoop := by
  intro s answers hc hb hflight h0 hz hi
  show Reaches s (fedWith (sourceNextFrame answers s).2 (sourceNextFrame answers s).1)
  have haccept : step s = exec .nextFrame (fedWith answers s) := (nextFrameAcceptance s).1 _ hi hb
  obtain ⟨-, hidle, heos, hterr, hovf⟩ := nextFrameAcceptance (fedWith answers s)
  cases hs : s.syncState with
  | idle =>
    rw [sourceNextFrame_idle hs]
    refine (Reaches.of_step (haccept.trans (hidle hs))).trans ?_
    exact reaches_topLoop (readAgrees answers) (s := { s with cmdBusy := true }) ⟨hc, rfl, h0, hz⟩
  | eos =>
    rw [sourceNextFrame, hs]
    exact Reaches.of_step (haccept.trans (heos hs))
  | terr =>
    rw [sourceNextFrame, hs]
    exact Reaches.of_step (haccept.trans (hterr hs))
  | ovf =>
    rw [sourceNextFrame, hs]
    exact Reaches.of_step (haccept.trans (hovf hs))
  | check | read | scan => simp [hs, SyncState.inFlight] at hflight

end Sys2Proof.Machine
end

section
/-! SUPPORT. Resynchronization (spec/43_sync.md R168): what one pass of the source's loop finds in the part of a stream
that has been delivered, and what three NEXT_FRAMEs return. -/

namespace Sys2Proof.Machine

/-! ### The delivered part of a stream -/

/-- A frame that decodes stands in the buffer whole (42 R136). -/
theorem frame_inside {cfg : Config} {m : List Byte} {k : Nat} {f : Frame} (h : decodeAt cfg m k = .ok f) :
    k + frameSize cfg.offsets f.len ≤ m.length := by
  obtain ⟨-, -, hlen, -, rfl⟩ := decodeFrame_ok_iff.1 h
  rw [List.length_drop] at hlen
  simp only [frameSize, frameOf] at hlen ⊢
  omega

/-- What decodes in the delivered part decodes in the stream, with the same frame. -/
theorem decodeAt_append {cfg : Config} (hc : cfg.Specified) {m : List Byte} {k : Nat} {f : Frame}
    (h : decodeAt cfg m k = .ok f) (x : List Byte) : decodeAt cfg (m ++ x) k = .ok f := by
  have hinside := frame_inside h
  rw [decodeAt, List.drop_append_of_le_length (by omega)]
  exact decodeFrame_append hc h x

/-- Of the offsets of `g ++ w`, `w` a valid frame, none but the frame's own starts a window of the stream that
decodes. -/
structure OnlyFrame (cfg : Config) (g w x : List Byte) : Prop where
  valid : ValidFrame cfg.crcAlg w
  only : ∀ k, k ≠ g.length → k < (g ++ w).length → ∀ f, decodeAt cfg (g ++ w ++ x) k ≠ .ok f

/-- What decodes at the lowest offset of the delivered part is the frame `w`, and all of `w` has been delivered. -/
theorem lowest_is_onlyFrame {cfg : Config} (hc : cfg.Specified) {g w x p rest : List Byte}
    (hframe : OnlyFrame cfg g w x) (hp : p ++ rest = g ++ w ++ x) {k : Nat} {f : Frame}
    (hf : decodeAt cfg p k = .ok f) (hbelow : ∀ i, i < k → ∀ f, decodeAt cfg p i ≠ .ok f) :
    k = g.length ∧ f = frameOf cfg w ∧ ∃ y, p = g ++ w ++ y ∧ y ++ rest = x := by
  obtain ⟨hvalid, honly⟩ := hframe
  have hinside := frame_inside hf
  have hstream : decodeAt cfg (g ++ w ++ x) k = .ok f := hp ▸ decodeAt_append hc hf rest
  have hw := decodeAt_validFrame hc hvalid g x
  have hsplit : (g ++ w).length ≤ p.length → ∃ y, p = g ++ w ++ y ∧ y ++ rest = x := by
    intro hlen
    obtain ⟨y, rfl⟩ := List.prefix_of_prefix_length_le ⟨x, rfl⟩ ⟨rest, hp⟩ hlen
    exact ⟨y, rfl, List.append_cancel_left (by rwa [List.append_assoc] at hp)⟩
  rcases eq_or_ne k g.length with rfl | hne
  · obtain rfl : f = frameOf cfg w := Except.ok.inj (hstream.symm.trans hw)
    rw [frameSize_of_validFrame hc hvalid] at hinside
    exact ⟨rfl, rfl, hsplit (by rwa [List.length_append])⟩
  · have hpast : (g ++ w).length ≤ k := Nat.le_of_not_lt fun hlt => honly k hne hlt f hstream
    obtain ⟨y, rfl, -⟩ := hsplit (by omega)
    rw [List.length_append] at hpast
    exact absurd (decodeAt_validFrame hc hvalid g y) (hbelow g.length (by omega) _)

/-! ### One NEXT_FRAME -/

@[simp] theorem responses_respond (st : Status) (v : Value) (s : State) :
    responses (respond st v s) = responses s ++ [⟨st, v⟩] := by
  simp [responses]

@[simp] theorem responses_startRead (s : State) : responses (startRead s) = responses s := by
  simp [responses]

/-- The answers of a transport that gives these chunks and then ends. -/
def deliver (chunks : List (List Byte)) : List Answer := chunks.map Answer.chunk ++ [.fin]

/-- A block with unbounded BUF_CAP: what is in BUF and the chunks to come are together the bytes `m`. -/
structure Streaming (cfg : Config) (chunks : List (List Byte)) (m : List Byte) (s : State) : Prop where
  config : s.cfg = cfg
  specified : cfg.Specified
  unbounded : cfg.bufCap = none
  nonempty : ∀ c, c ∈ chunks → c ≠ []
  bytes : s.buf ++ chunks.flatten = m

/-- NEXT_FRAME has answered with the frame `f`, and the bytes `x` are left. -/
def Returns (cfg : Config) (f : Frame) (x : List Byte) (before : List Response) (r : State × List Answer) : Prop :=
  ∃ chunks, r.2 = deliver chunks ∧ Streaming cfg chunks x r.1 ∧ r.1.syncState = .idle ∧ r.1.short = false ∧
    responses r.1 = before ++ [⟨.ok, .frame f⟩]

section
variable {cfg : Config} {g w x : List Byte} (hframe : OnlyFrame cfg g w x)
include hframe

/-- A scan that finds a frame finds `w` and consumes the bytes up to its end (43 R159). -/
theorem returns_of_loopScan {chunks : List (List Byte)} {s t : State} (h : Streaming cfg chunks (g ++ w ++ x) s)
    (hshort : s.short = false) (ht : loopScan s = some t) :
    Returns cfg (frameOf cfg w) x (responses s) (t, deliver chunks) := by
  obtain ⟨rfl, hc, hcap, hne, hbytes⟩ := h
  obtain ⟨k, f, hf, hbelow, rfl⟩ := loopScan_some ht
  obtain ⟨rfl, rfl, y, hbuf, hrest⟩ := lowest_is_onlyFrame hc hframe hbytes hf fun i hi f hf => hbelow i hi ⟨f, hf⟩
  have hleft : (loopReturn g.length (frameOf s.cfg w) s).buf = y := by
    show s.buf.drop (g.length + frameSize s.cfg.offsets (frameOf s.cfg w).len) = y
    rw [frameSize_of_validFrame hc hframe.valid, hbuf, ← List.length_append, List.drop_left]
  exact ⟨chunks, rfl, ⟨rfl, hc, hcap, hne, hleft ▸ hrest⟩, rfl, hshort, responses_respond _ _ _⟩

/-- The loop returns `w` from its top if it does so from a read. -/
theorem returns_topLoop {chunks : List (List Byte)}
    (hread : ∀ s, Streaming cfg chunks (g ++ w ++ x) s → NoFrame s →
      Returns cfg (frameOf cfg w) x (responses s) (readLoop (deliver chunks) s))
    {s : State} (h : Streaming cfg chunks (g ++ w ++ x) s) (hshort : s.short = false) :
    Returns cfg (frameOf cfg w) x (responses s) (topLoop (deliver chunks) s) := by
  have hc : s.cfg.Specified := h.config ▸ h.specified
  unfold topLoop
  cases hm : mustRead s with
  | true =>
    have hempty : s.buf = [] := by simpa [hshort] using mustRead_iff.1 hm
    exact hread s h (noFrame_of_short hc (by simp [hempty, hc.1]))
  | false =>
    cases hscan : loopScan s with
    | some t => exact returns_of_loopScan hframe h hshort hscan
    | none =>
      have hno : NoFrame (setShort s) := noFrame_congr (s := s) rfl rfl (noFrame_of_loopScan hc hscan)
      exact hread (setShort s) ⟨h.config, h.specified, h.unbounded, h.nonempty, h.bytes⟩ hno

/-- The loop goes on reading until all of `w` has been delivered, and returns it. -/
theorem returns_readLoop {chunks : List (List Byte)} {s : State} (h : Streaming cfg chunks (g ++ w ++ x) s)
    (hno : NoFrame s) : Returns cfg (frameOf cfg w) x (responses s) (readLoop (deliver chunks) s) := by
  induction chunks generalizing s with
  | nil =>
    obtain ⟨rfl, hc, -, -, hbytes⟩ := h
    rw [List.flatten_nil, List.append_nil] at hbytes
    have hw : decodeAt s.cfg s.buf g.length = .ok (frameOf s.cfg w) := hbytes ▸ decodeAt_validFrame hc hframe.valid g x
    exact absurd ⟨_, hw⟩ (hno g.length)
  | cons c rest ih =>
    obtain ⟨rfl, hc, hcap, hne, hbytes⟩ := h
    have happended : Streaming s.cfg rest (g ++ w ++ x) (appendChunk c (startRead s)) :=
      ⟨rfl, hc, hcap, fun d hd => hne d (List.mem_cons_of_mem _ hd), by
        rw [← hbytes, List.flatten_cons, ← List.append_assoc]; rfl⟩
    have hfits : Memory.fits s.cfg.bufCap s.buf c.length = true := by rw [hcap]; rfl
    show Returns s.cfg (frameOf s.cfg w) x (responses s) (readLoop (.chunk c :: deliver rest) s)
    rw [readLoop_chunk (hne c List.mem_cons_self), if_pos hfits, ← responses_startRead]
    exact returns_topLoop hframe (fun _ => ih) happended rfl

/-- NEXT_FRAME from IDLE returns `w`, for every split. -/
theorem returns_sourceNextFrame {chunks : List (List Byte)} {s : State}
    (h : Streaming cfg chunks (g ++ w ++ x) s) (hs : s.syncState = .idle) (hshort : s.short = false) :
    Returns cfg (frameOf cfg w) x (responses s) (sourceNextFrame (deliver chunks) s) := by
  rw [sourceNextFrame_idle hs]
  exact returns_topLoop (s := { s with cmdBusy := true }) hframe (fun _ => returns_readLoop hframe)
    ⟨h.config, h.specified, h.unbounded, h.nonempty, h.bytes⟩ hshort

end

/-- With no byte left the next read gets End (43 R156). -/
theorem responses_sourceNextFrame_end {cfg : Config} {chunks : List (List Byte)} {s : State}
    (h : Streaming cfg chunks [] s) (hs : s.syncState = .idle) :
    responses (sourceNextFrame (deliver chunks) s).1 = responses s ++ [⟨.endOfStream, .noValue⟩] := by
  obtain ⟨hempty, hflat⟩ := List.append_eq_nil_iff.1 h.bytes
  have hnone : chunks = [] := List.eq_nil_iff_forall_not_mem.2 fun c hc =>
    h.nonempty c hc (List.flatten_eq_nil_iff.1 hflat c hc)
  have hm : mustRead { s with cmdBusy := true } = true := mustRead_iff.2 (.inl hempty)
  subst hnone
  rw [sourceNextFrame_idle hs, topLoop, if_pos hm]
  exact (responses_respond _ _ _).trans (congrArg (· ++ _) (responses_startRead { s with cmdBusy := true }))

/-! ### Three NEXT_FRAMEs -/

/-- Settles O44: each frame is the only one that can be found until it is consumed, and then the stream ends. -/
theorem resynchronizesOnEverySplit : Obligations.ResynchronizesOnEverySplit := by
  rintro s g₁ w₁ g₂ w₂ chunks f₁ f₂ hc hcap hs hbuf hshort hf₁ hf₂ hw₁ hw₂ honly hne hflat r₁ r₂ r₃ h₁ h₂ h₃
  obtain rfl : frameOf s.cfg w₁ = f₁ := Except.ok.inj ((decodeFrame_of_validFrame hc hw₁).symm.trans hf₁)
  obtain rfl : frameOf s.cfg w₂ = f₂ := Except.ok.inj ((decodeFrame_of_validFrame hc hw₂).symm.trans hf₂)
  obtain ⟨hmin, -⟩ := length_of_validFrame hw₁
  have hframe₁ : OnlyFrame s.cfg g₁ w₁ (g₂ ++ w₂) := ⟨hw₁, fun k hk hlt f => by
    rw [← List.append_assoc]
    exact honly k f hk (by simp only [List.length_append] at hlt ⊢; omega)⟩
  have hframe₂ : OnlyFrame s.cfg g₂ w₂ [] := ⟨hw₂, fun k hk _ f hf => by
    refine honly ((g₁ ++ w₁).length + k) f ?_ ?_ ?_
    · rw [List.length_append]; omega
    · rw [List.length_append (bs := g₂)]; omega
    · rw [List.append_nil] at hf
      rw [List.append_assoc (g₁ ++ w₁), decodeAt, List.drop_length_add_append]
      exact hf⟩
  have hstream : Streaming s.cfg chunks (g₁ ++ w₁ ++ (g₂ ++ w₂)) s :=
    ⟨rfl, hc, hcap, hne, by rw [hbuf, hflat, List.nil_append, ← List.append_assoc]⟩
  obtain ⟨chunks₁, hdeliver₁, hstream₁, hs₁, hshort₁, hout₁⟩ : Returns s.cfg _ _ _ r₁ :=
    h₁ ▸ returns_sourceNextFrame hframe₁ hstream hs hshort
  rw [← List.append_nil (g₂ ++ w₂)] at hstream₁
  rw [hdeliver₁] at h₂
  obtain ⟨chunks₂, hdeliver₂, hstream₂, hs₂, -, hout₂⟩ : Returns s.cfg _ _ _ r₂ :=
    h₂ ▸ returns_sourceNextFrame hframe₂ hstream₁ hs₁ hshort₁
  rw [h₃, hdeliver₂, responses_sourceNextFrame_end hstream₂ hs₂, hout₂, hout₁]
  simp only [List.append_assoc, List.cons_append, List.nil_append]

end Sys2Proof.Machine
end

section
/-! SUPPORT. A transport that answers for ever (spec/43_sync.md R164): a source's answer as an answer, and the block
that is fed chunks in which no frame validates. -/

namespace Sys2Proof.Machine

/-! ### A source's answer -/

section
variable {s : State} {src : AnswerSource} {rest : List Input} (hb : s.cmdBusy = true) (hs : s.syncState = .read)
  (hi : s.inputs = .stream src :: rest)
include hb hs hi

theorem step_of_stream : step s = receiveStream src rest s := by
  simp [step, hi, ownStepReady_read hs, hb, hs]

/-- A source's answer is as an answer to the outstanding read (log entry 20). -/
theorem step_stream_answer {a : Answer} {src' : AnswerSource}
    (hn : AnswerSource.next s.cfg.readMax s.reads src = some (a, src')) :
    step s = step { s with inputs := .answer s.reads a :: .stream src' :: rest } := by
  rw [step_of_stream hb hs hi, receiveStream, hn]
  exact (step_of_answer_read (s := { s with inputs := .answer s.reads a :: _ }) hs rfl).symm

/-- With a silent source the block waits (43 R164). -/
theorem step_stream_silent (hn : AnswerSource.next s.cfg.readMax s.reads src = none) : step s = .next s := by
  rw [step_of_stream hb hs hi, receiveStream, hn]

end

/-! ### Chunks in which no frame validates -/

theorem chunks_succ {readMax read n : Nat} {src : AnswerSource} {cs : List (List Byte)}
    (h : AnswerSource.chunks readMax read (n + 1) src = some cs) :
    ∃ c src' later, AnswerSource.next readMax read src = some (.chunk c, src') ∧ c ≠ [] ∧
      AnswerSource.chunks readMax (read + 1) n src' = some later ∧ cs = c :: later := by
  rw [AnswerSource.chunks] at h
  split at h
  · rename_i b c src' hn
    obtain ⟨later, hlater, rfl⟩ := Option.map_eq_some_iff.1 h
    exact ⟨b :: c, src', later, hn, List.cons_ne_nil b c, hlater, rfl⟩
  · cases h

/-- `EndlessGarbage` of a buffer and the number of the read that is answered next. -/
def Garbage (cfg : Config) (m : List Byte) (read : Nat) (src : AnswerSource) : Prop :=
  ∀ n, ∃ cs, AnswerSource.chunks cfg.readMax read n src = some cs ∧ (∀ c, c ∈ cs → c.length ≤ cfg.readMax) ∧
    ∀ k f, decodeAt cfg (m ++ cs.flatten) k ≠ .ok f

theorem endlessGarbage_iff (s : State) (src : AnswerSource) :
    EndlessGarbage s src ↔ Garbage s.cfg s.buf s.reads src := Iff.rfl

/-- What BUF holds before the next answer is garbage. -/
theorem Garbage.here {cfg : Config} {m : List Byte} {read : Nat} {src : AnswerSource} (h : Garbage cfg m read src)
    (k : Nat) (f : Frame) : decodeAt cfg m k ≠ .ok f := by
  obtain ⟨cs, hcs, -, hno⟩ := h 0
  obtain rfl : [] = cs := Option.some.inj hcs
  have hk := hno k f
  rwa [List.flatten_nil, List.append_nil] at hk

/-- The next answer is a chunk, and BUF with it is garbage that the source goes on with. -/
theorem Garbage.next {cfg : Config} {m : List Byte} {read : Nat} {src : AnswerSource} (h : Garbage cfg m read src) :
    ∃ c src', AnswerSource.next cfg.readMax read src = some (.chunk c, src') ∧ c ≠ [] ∧ c.length ≤ cfg.readMax ∧
      Garbage cfg (m ++ c) (read + 1) src' := by
  obtain ⟨cs, hcs, hle, -⟩ := h 1
  obtain ⟨c, src', _, hn, hne, -, rfl⟩ := chunks_succ hcs
  refine ⟨c, src', hn, hne, hle c List.mem_cons_self, fun n => ?_⟩
  obtain ⟨ds, hds, hdle, hno⟩ := h (n + 1)
  obtain ⟨d, srcd, later, hd, -, hlater, rfl⟩ := chunks_succ hds
  obtain ⟨⟨⟩, rfl⟩ : Answer.chunk c = .chunk d ∧ src' = srcd := Prod.mk.inj (Option.some.inj (hn.symm.trans hd))
  refine ⟨later, hlater, fun e he => hdle e (List.mem_cons_of_mem _ he), fun k f => ?_⟩
  rw [List.append_assoc, ← List.flatten_cons]
  exact hno k f

/-! ### The block that is fed garbage -/

/-- The number of the read that is answered next: the outstanding one, or the one to come. -/
def nextRead (s : State) : Nat := if s.syncState = .read then s.reads else s.reads + 1

/-- A NEXT_FRAME is in flight with no response yet, fed from a source of garbage. -/
structure Starving (rest : List Input) (before : List Response) (s : State) : Prop where
  inv : BlockInv s
  busy : s.cmdBusy = true
  quiet : responses s = before
  fed : ∃ src, s.inputs = .stream src :: rest ∧ Garbage s.cfg s.buf (nextRead s) src

section
variable {rest : List Input} {before : List Response} {s : State} (h : Starving rest before s)
include h

theorem Starving.noFrame : NoFrame s := by
  obtain ⟨src, -, hgarbage⟩ := h.fed
  exact fun k ⟨f, hf⟩ => hgarbage.here k f hf

theorem Starving.undisturbed : undisturbed s = true := by
  obtain ⟨src, hi, -⟩ := h.fed
  simp [Machine.undisturbed, hi]

/-- Steps that leave BUF, the inputs and the responses alone go on starving. -/
theorem Starving.congr {t : State} (hinv : BlockInv t) (hb : t.cmdBusy = true) (hout : responses t = responses s)
    (hi : t.inputs = s.inputs) (hcfg : t.cfg = s.cfg) (hbuf : t.buf = s.buf) (hread : nextRead t = nextRead s) :
    Starving rest before t :=
  ⟨hinv, hb, hout.trans h.quiet, by rw [hi, hcfg, hbuf, hread]; exact h.fed⟩

/-- The block's own steps, while it is not in READ, find no frame. -/
theorem Starving.ownStep (hs : s.syncState ≠ .read) : ∃ t, step s = .next t ∧ Starving rest before t := by
  have hr := ownStepReady_of_busy h.inv h.busy hs
  obtain ⟨t, ht⟩ := blockStep_goesOn h.inv
  have hstep : step s = .next t := (step_of_ownStepReady hr h.undisturbed).trans ht
  have hinv : BlockInv t := invariantKeptByEveryStep s t h.inv hstep
  have hnext : nextRead s = s.reads + 1 := if_neg hs
  refine ⟨t, hstep, ?_⟩
  rcases blockStep_cases ht with ⟨hidle, -⟩ | ⟨hb, -, rfl⟩ | ⟨-, -, f, hf, -⟩ | ⟨hb, -, -, -, rfl⟩ | ⟨hb, -, -, -, rfl⟩
  · rw [hr] at hidle; cases hidle
  · rcases checkStep_cases s with ⟨-, heq⟩ | ⟨-, -, -, heq⟩ | ⟨-, -, -, heq⟩ <;> rw [heq] at hinv ⊢
    · exact h.congr hinv hb (responses_startRead s) rfl rfl rfl hnext.symm
    · exact h.congr hinv hb (responses_startRead _) rfl rfl rfl hnext.symm
    · exact h.congr hinv hb rfl rfl rfl rfl hnext.symm
  · exact absurd ⟨f, hf⟩ (h.noFrame s.cur)
  · exact h.congr hinv hb rfl rfl rfl rfl rfl
  · exact h.congr hinv hb rfl rfl rfl rfl hnext.symm

/-- In READ a chunk comes; if it fits the block goes on starving in CHECK, else NEXT_FRAME ends in OVF. -/
theorem Starving.answered (hs : s.syncState = .read) : ∃ c, c ≠ [] ∧
    (Memory.fits s.cfg.bufCap s.buf c.length = true → ∃ t, step s = .next t ∧ Starving rest before t ∧
      t.syncState = .check ∧ t.reads = s.reads ∧ t.buf = s.buf ++ c) ∧
    (¬ Memory.fits s.cfg.bufCap s.buf c.length = true → ∃ t, step s = .next t ∧ t.syncState = .ovf ∧
      responses t = before ++ [⟨.bufferOverflow, .noValue⟩]) := by
  obtain ⟨hinv, hb, hquiet, src, hi, hgarbage⟩ := h
  have hnext : nextRead s = s.reads := if_pos hs
  rw [hnext] at hgarbage
  obtain ⟨c, src', hn, hne, hle, hgarbage'⟩ := hgarbage.next
  have hstep : step s = .next (takeAnswer (.chunk c) { s with inputs := .stream src' :: rest }) := by
    rw [step_stream_answer hb hs hi hn]
    exact step_read_answer (s := { s with inputs := .answer s.reads (.chunk c) :: _ }) hb hs rfl hle
  refine ⟨c, hne, fun hfits => ?_, fun hfull => ?_⟩
  · rw [takeAnswer_fits (s := { s with inputs := .stream src' :: rest }) hne hfits] at hstep
    exact ⟨_, hstep, ⟨invariantKeptByEveryStep s _ hinv hstep, hb, hquiet, src', rfl, hgarbage'⟩, rfl, rfl, rfl⟩
  · rw [takeAnswer_overflow (s := { s with inputs := .stream src' :: rest }) hne hfull] at hstep
    exact ⟨_, hstep, rfl, hquiet ▸ responses_respond _ _ _⟩

/-- From CHECK the block reads again. -/
theorem Starving.readsAgain (hs : s.syncState = .check) : ∃ t, Reaches s t ∧ Starving rest before t ∧
    t.syncState = .read ∧ t.reads = s.reads + 1 ∧ t.buf = s.buf := by
  have h0 : s.cur = 0 := h.inv.cursorHome (by simp [hs])
  have hnext : nextRead s = s.reads + 1 := if_neg (by simp [hs])
  obtain ⟨n, -, hrun⟩ := runSteps_stretch h.busy hs h.undisturbed h.inv.config h0
  have hinv : BlockInv (stretchEnd s) := runSteps_keeps invariantKeptByEveryStep hrun h.inv
  refine ⟨stretchEnd s, ⟨n, hrun⟩, ?_⟩
  cases hm : mustRead s with
  | true =>
    rw [stretchEnd_of_mustRead hm] at hinv ⊢
    exact ⟨h.congr hinv h.busy (responses_startRead s) rfl rfl rfl hnext.symm, rfl, rfl, rfl⟩
  | false =>
    rw [stretchEnd_of_scan hm, loopScan_of_noFrame h.noFrame] at hinv ⊢
    exact ⟨h.congr hinv h.busy (responses_startRead (setShort s)) rfl rfl rfl hnext.symm, rfl, rfl, rfl⟩

/-- From READ to READ: one read answered, with a chunk that fits, or the end in OVF. -/
theorem Starving.round (hs : s.syncState = .read) : ∃ c, c ≠ [] ∧
    (Memory.fits s.cfg.bufCap s.buf c.length = true → ∃ t, Reaches s t ∧ Starving rest before t ∧
      t.syncState = .read ∧ t.reads = s.reads + 1 ∧ t.buf = s.buf ++ c) ∧
    (¬ Memory.fits s.cfg.bufCap s.buf c.length = true → ∃ t, Reaches s t ∧ t.syncState = .ovf ∧
      responses t = before ++ [⟨.bufferOverflow, .noValue⟩]) := by
  obtain ⟨c, hne, hgoesOn, hends⟩ := h.answered hs
  refine ⟨c, hne, fun hfits => ?_, fun hfull => ?_⟩
  · obtain ⟨u, hu, hstarving, hcheck, hreads, hbuf⟩ := hgoesOn hfits
    obtain ⟨t, ht, hstarving', hread, hreads', hbuf'⟩ := hstarving.readsAgain hcheck
    exact ⟨t, (Reaches.of_step hu).trans ht, hstarving', hread, by rw [hreads', hreads], by rw [hbuf', hbuf]⟩
  · obtain ⟨t, ht, hend⟩ := hends hfull
    exact ⟨t, Reaches.of_step ht, hend⟩

end

theorem Reaches.cfg {s t : State} : Reaches s t → t.cfg = s.cfg
  | ⟨n, hn⟩ => configurationIsFixed s n t hn

section
variable {rest : List Input} {before : List Response} {s : State}

/-- With BUF_CAP unbounded every step goes on starving. -/
theorem Starving.step (h : Starving rest before s) (hcap : s.cfg.bufCap = none) :
    ∃ t, Machine.step s = .next t ∧ Starving rest before t := by
  by_cases hs : s.syncState = .read
  · obtain ⟨c, -, hgoesOn, -⟩ := h.answered hs
    obtain ⟨t, ht, hstarving, -⟩ := hgoesOn (by rw [hcap]; rfl)
    exact ⟨t, ht, hstarving⟩
  · exact h.ownStep hs

theorem Starving.run (h : Starving rest before s) (hcap : s.cfg.bufCap = none) (k : Nat) :
    ∃ t, runSteps k s = .next t ∧ Starving rest before t := by
  induction k generalizing s with
  | zero => exact ⟨s, rfl, h⟩
  | succ k ih =>
    obtain ⟨u, hu, hstarving⟩ := h.step hcap
    obtain ⟨t, ht, hstarving'⟩ := ih hstarving (by rw [step_cfg hu, hcap])
    exact ⟨t, by rw [runSteps_succ hu, ht], hstarving'⟩

/-- With BUF_CAP unbounded any number of reads is answered, and BUF grows with each. -/
theorem Starving.grows (h : Starving rest before s) (hs : s.syncState = .read) (hcap : s.cfg.bufCap = none) (n : Nat) :
    ∃ t, Reaches s t ∧ t.syncState = .read ∧ t.reads = s.reads + n ∧ s.buf.length + n ≤ t.buf.length := by
  induction n generalizing s with
  | zero => exact ⟨s, Reaches.refl s, hs, rfl, Nat.le_refl _⟩
  | succ n ih =>
    obtain ⟨c, hne, hgoesOn, -⟩ := h.round hs
    obtain ⟨u, hu, hstarving, hread, hreads, hbuf⟩ := hgoesOn (by rw [hcap]; rfl)
    obtain ⟨t, ht, hread', hreads', hlen⟩ := ih hstarving hread (by rw [hu.cfg, hcap])
    have hpos := List.length_pos_iff.2 hne
    rw [hbuf, List.length_append] at hlen
    exact ⟨t, hu.trans ht, hread', by omega, by omega⟩

/-- With a finite BUF_CAP the room in BUF shrinks with each read, until a chunk does not fit. -/
theorem Starving.overflows (h : Starving rest before s) (hs : s.syncState = .read) {cap : Nat}
    (hcap : s.cfg.bufCap = some cap) {room : Nat} (hroom : cap - s.buf.length ≤ room) :
    ∃ t, Reaches s t ∧ t.syncState = .ovf ∧ responses t = before ++ [⟨.bufferOverflow, .noValue⟩] := by
  induction room generalizing s with
  | zero =>
    obtain ⟨c, hne, -, hends⟩ := h.round hs
    refine hends fun hfits => ?_
    have hlen := (Memory.fits_iff _ _ _).1 hfits cap hcap
    have hpos := List.length_pos_iff.2 hne
    omega
  | succ room ih =>
    obtain ⟨c, hne, hgoesOn, hends⟩ := h.round hs
    by_cases hfits : Memory.fits s.cfg.bufCap s.buf c.length = true
    · obtain ⟨u, hu, hstarving, hread, -, hbuf⟩ := hgoesOn hfits
      have hpos := List.length_pos_iff.2 hne
      obtain ⟨t, ht, hend⟩ := ih hstarving hread (by rw [hu.cfg, hcap]) (by rw [hbuf, List.length_append]; omega)
      exact ⟨t, hu.trans ht, hend⟩
    · exact hends hfits

end

/-- Settles O60: each source's answer is an answer; a source of garbage starves the block until BUF_CAP is reached. -/
theorem transportMayAnswerForEver : Obligations.TransportMayAnswerForEver := by
  intro s src rest h hs hi
  have hb := cmdBusy_of_inFlight h (by rw [hs]; rfl)
  have hstarving : EndlessGarbage s src → Starving rest (responses s) s := fun hgarbage =>
    ⟨h, hb, rfl, src, hi, by
      rw [nextRead, if_pos hs]
      exact (endlessGarbage_iff s src).1 hgarbage⟩
  refine ⟨fun a src' hn => step_stream_answer hb hs hi hn, fun hn => step_stream_silent hb hs hi hn, ?_, ?_⟩
  · intro hgarbage hcap
    constructor
    · intro k
      obtain ⟨t, ht, hend⟩ := (hstarving hgarbage).run hcap k
      exact ⟨t, ht, hend.busy, hend.quiet⟩
    · intro n
      obtain ⟨t, ⟨k, hk⟩, hend⟩ := (hstarving hgarbage).grows hs hcap n
      exact ⟨k, t, hk, hend⟩
  · intro cap hgarbage hcap
    obtain ⟨t, ⟨k, hk⟩, hend⟩ := (hstarving hgarbage).overflows hs hcap (Nat.le_refl _)
    exact ⟨k, t, hk, hend⟩

end Sys2Proof.Machine
end

section
/-! SUPPORT. The vector V-S9 (spec/43_sync.md R166): one stream, two splits, two frames. -/

namespace Sys2Proof.Machine

/-- V-S9's inner frame, F1. -/
def innerFrame : List Byte :=
  [0x63, 0x00, 0x01, 0x00, 0x04, 0x00, 0x00, 0x06, 0x00, 0x01, 0x10, 0x2A, 0x81, 0x6D]

/-- V-S9's outer frame, whose payload is the inner one. -/
def outerFrame : List Byte := [0x63, 0x00, 0x01, 0x00, 0x0E, 0x00, 0x00, 0x0C] ++ innerFrame ++ [0x46, 0x04]

/-- Power-on with NEXT_FRAME next, and then those answers to its reads. -/
def firstCall (answers : List Answer) : State := startedWith (.transfer 0x8000 [] :: numberedAnswers 1 answers)

/-- The machine's first NEXT_FRAME gives the responses of the source's loop (43 R162). -/
theorem firstCall_responses {answers : List Answer} {l : List Response}
    (hz : ∀ a, a ∈ answers → Answer.size a ≤ Config.default.readMax)
    (hl : responses (sourceNextFrame answers (firstCall answers)).1 = l) :
    ∃ n t, runSteps n (firstCall answers) = .next t ∧ responses t = l := by
  have hc : Config.default.Specified := by decide
  obtain ⟨n, hn⟩ := stepsEqualTheSourceLoop (firstCall answers) answers hc rfl rfl rfl hz rfl
  exact ⟨n, _, hn, hl⟩

set_option maxRecDepth 100000 in
/-- In one chunk the outer frame is whole, and its offset is the lower one. -/
theorem responses_outer_inOneChunk :
    responses (sourceNextFrame [.chunk outerFrame] (firstCall [.chunk outerFrame])).1 =
      [⟨.ok, .frame (frameOf Config.default outerFrame)⟩] := by decide

set_option maxRecDepth 100000 in
/-- After 22 bytes only the inner frame is whole. -/
theorem responses_outer_inTwoChunks :
    responses (sourceNextFrame [.chunk (outerFrame.take 22), .chunk (outerFrame.drop 22)]
        (firstCall [.chunk (outerFrame.take 22), .chunk (outerFrame.drop 22)])).1 =
      [⟨.ok, .frame (frameOf Config.default innerFrame)⟩] := by decide

/-- Settles O45: V-S9's outer frame, in one chunk and in two. -/
theorem chunkingChangesTheFrame : Obligations.ChunkingChangesTheFrame :=
  ⟨outerFrame, frameOf Config.default outerFrame, frameOf Config.default innerFrame, by decide,
    firstCall_responses (by decide) responses_outer_inOneChunk,
    firstCall_responses (by decide) responses_outer_inTwoChunks⟩

end Sys2Proof.Machine
end

section
/-! SUPPORT. The statements of spec/60_exceptions.md about all commands: the status codes, what a NEXT_FRAME in flight
can answer, and that the machine stops on a broken duty of the environment only. -/

namespace Sys2Proof.Machine

/-! ### The status codes -/

/-- The statuses in the order of 60 R201. -/
def allStatuses : List Status :=
  [.ok, .frameTooShort, .checksumInvalid, .lengthZero, .endOfStream, .transportError, .bufferOverflow,
    .invalidFunction, .argumentOutOfRange, .illegalCommand]

theorem mem_allStatuses (a : Status) : a ∈ allStatuses := by
  cases a <;> decide

/-- Settles O46: the ten codes in a row are no two the same, and every status is one of the ten. -/
theorem statusCodes : Obligations.StatusCodes := by
  have hnodup : (allStatuses.map Status.code).Nodup := by decide
  exact ⟨rfl, fun a b => List.inj_on_of_nodup_map hnodup (mem_allStatuses a) (mem_allStatuses b)⟩

/-! ### The responses of a NEXT_FRAME in flight -/

/-- The response `r` is on the port after the step and was not before. -/
def NewResponse (s t : State) (r : Response) : Prop := .response r ∈ t.out ∧ .response r ∉ s.out

/-- Among a step's outputs a new response is one that the step adds. -/
theorem NewResponse.mem {s t : State} {r : Response} {l : List Output} (h : NewResponse s t r)
    (hout : t.out = s.out ++ l) : .response r ∈ l := by
  obtain ⟨ht, hs⟩ := h
  rw [hout] at ht
  exact (List.mem_append.1 ht).resolve_left hs

/-- The one response that a step adds. -/
theorem NewResponse.eq {s t : State} {r q : Response} (h : NewResponse s t r)
    (hout : t.out = s.out ++ [.response q]) : r = q := by
  simpa using h.mem hout

/-- A step with no output adds no response. -/
theorem not_newResponse {s t : State} (hout : t.out = s.out) (r : Response) : ¬ NewResponse s t r :=
  fun ⟨ht, hs⟩ => hs (hout ▸ ht)

/-- A transport read is no response. -/
theorem not_newResponse_startRead (s : State) (r : Response) : ¬ NewResponse s (startRead s) r := fun h => by
  simpa using h.mem (startRead_out s)

theorem not_newResponse_checkStep (s : State) (r : Response) : ¬ NewResponse s (checkStep s) r := by
  rcases checkStep_cases s with ⟨-, heq⟩ | ⟨-, -, -, heq⟩ | ⟨-, -, -, heq⟩ <;> rw [heq]
  · exact not_newResponse_startRead s r
  · exact not_newResponse_startRead (setShort s) r
  · exact not_newResponse rfl r

/-- The block's own steps answer with a frame only: what a trial decode's error leads to adds no response (60 R203). -/
theorem blockStep_newResponse {s t : State} {r : Response} (h : blockStep s = .next t) (hr : NewResponse s t r) :
    ∃ f, r = ⟨.ok, .frame f⟩ := by
  rcases blockStep_cases h with ⟨-, rfl⟩ | ⟨-, -, rfl⟩ | ⟨-, -, f, -, rfl⟩ | ⟨-, -, -, -, rfl⟩ | ⟨-, -, -, -, rfl⟩
  · exact absurd hr (not_newResponse rfl r)
  · exact absurd hr (not_newResponse_checkStep s r)
  · exact ⟨f, hr.eq (scanMatch_out f s)⟩
  · exact absurd hr (not_newResponse rfl r)
  · exact absurd hr (not_newResponse rfl r)

/-- The answer to the outstanding read leads to one of the three stream errors or to no response (60 R205). -/
theorem takeAnswer_newResponse {a : Answer} {s : State} {r : Response} (hr : NewResponse s (takeAnswer a s) r) :
    ∃ e, e ∈ [Status.endOfStream, .transportError, .bufferOverflow] ∧ r = ⟨e, .noValue⟩ := by
  rcases takeAnswer_cases a s with ⟨y, e, hmem, heq⟩ | ⟨c, -, -, -, heq⟩ <;> rw [heq] at hr
  · have he : e ∈ [Status.endOfStream, .transportError, .bufferOverflow] := by
      simp only [List.mem_cons, Prod.mk.injEq, List.not_mem_nil, or_false] at hmem
      rcases hmem with ⟨-, rfl⟩ | ⟨-, rfl⟩ | ⟨-, rfl⟩ <;> decide
    exact ⟨e, he, hr.eq (endStream_out y e s)⟩
  · exact absurd hr (not_newResponse rfl r)

/-- Settles O47: a busy block takes a step of its own or an answer to its read; every other step adds no response. -/
theorem decodeErrorsStayInside : Obligations.DecodeErrorsStayInside := by
  intro s t r h hb ht hs
  have hr : NewResponse s t r := ⟨ht, hs⟩
  rcases step_cases h with ⟨rest, -, rfl⟩ | ⟨-, l, -, hblock⟩ | ⟨w, p, rest, e, -, hidle, -, -⟩ |
    ⟨w, p, rest, i, -, hidle, -, -⟩ | ⟨a, l, -, -, -, -, rfl⟩ | ⟨n, a, rest, -, -, -, rfl⟩
  · exact absurd hr (not_newResponse rfl r)
  · obtain ⟨f, rfl⟩ := blockStep_newResponse (s := { s with inputs := l }) hblock hr
    exact .inl ⟨rfl, f, rfl⟩
  · simp [hb] at hidle
  · simp [hb] at hidle
  · obtain ⟨e, he, rfl⟩ := takeAnswer_newResponse (s := { s with inputs := l }) hr
    exact .inr ⟨rfl, he⟩
  · exact absurd hr (not_newResponse rfl r)

/-! ### A broken duty is what stops the machine -/

/-- The outcome goes on when `P` holds and is a refusal when it does not: it is never a fault. -/
def GoesOnExactlyIf (P : Prop) (o : Host.Outcome State Fault Refusal) : Prop :=
  (P → ∃ t, o = .next t) ∧ (¬ P → ∃ r, o = .refused r)

theorem goesOn_of {P : Prop} {o : Host.Outcome State Fault Refusal} (hP : P) (ho : ∃ t, o = .next t) :
    GoesOnExactlyIf P o :=
  ⟨fun _ => ho, fun hn => absurd hP hn⟩

theorem refused_of {P : Prop} {o : Host.Outcome State Fault Refusal} (hP : ¬ P) (ho : ∃ r, o = .refused r) :
    GoesOnExactlyIf P o :=
  ⟨fun h => absurd h hP, fun _ => ho⟩

/-- A ready port's command goes on: it is answered, or it is NEXT_FRAME from IDLE or a terminal state (43 R151). -/
theorem exec_goesOn {s : State} (h : BlockInv s) (hb : s.cmdBusy = false) (i : Instr) : ∃ t, exec i s = .next t := by
  cases i with
  | crcInit | crcUpdate | crcRead | setId | getId => exact ⟨_, rfl⟩
  | encode sel dest data =>
    simp only [exec, execEncode]
    split
    · exact ⟨_, rfl⟩
    · split <;> exact ⟨_, rfl⟩
  | decode w =>
    simp only [exec, execDecode]
    split <;> exact ⟨_, rfl⟩
  | nextFrame =>
    have hrest : s.syncState.inFlight = false := h.busy ▸ hb
    simp only [exec, execNextFrame]
    cases hs : s.syncState with
    | idle | eos | terr | ovf => exact ⟨_, rfl⟩
    | check | read | scan => simp [hs, SyncState.inFlight] at hrest

theorem acceptTransfer_goesOn {s : State} (h : BlockInv s) (hb : s.cmdBusy = false) (w : U16) (p : List Byte) :
    ∃ t, acceptTransfer w p s = .next t := by
  unfold acceptTransfer
  split
  · exact exec_goesOn h hb _
  · exact ⟨_, rfl⟩

/-- An answer to a read that is not outstanding is discarded if a reset abandoned the read (70 R231), else it has no
step (43 R157). -/
theorem receiveAnswer_notOutstanding {n : Nat} {a : Answer} {s : State} (hout : ¬ (s.syncState = .read ∧ n = s.reads))
    (hz : Answer.size a ≤ s.cfg.readMax) :
    receiveAnswer n a s = if n ∈ s.abandoned then .next { s with abandoned := s.abandoned.erase n }
      else .refused .answerWithoutRead := by
  have hskip : (s.cmdBusy && s.syncState == .read && n == s.reads) = false := by
    simpa [and_assoc] using fun _ => not_and.1 hout
  simp [receiveAnswer, Nat.not_lt.2 hz, hskip]

/-- An answer that is received goes on exactly if it is to the outstanding read or an abandoned one and brings at most
READ_MAX bytes (43 R157, 70 R231). -/
theorem receiveAnswer_goesOn {s : State} (h : BlockInv s) (n : Nat) (a : Answer) :
    GoesOnExactlyIf (Answer.size a ≤ s.cfg.readMax ∧ ((s.syncState = .read ∧ n = s.reads) ∨ n ∈ s.abandoned))
      (receiveAnswer n a s) := by
  by_cases hz : Answer.size a ≤ s.cfg.readMax
  · by_cases hout : s.syncState = .read ∧ n = s.reads
    · obtain ⟨hs, rfl⟩ := hout
      have hb : s.cmdBusy = true := cmdBusy_of_inFlight h (by rw [hs]; rfl)
      exact goesOn_of ⟨hz, .inl ⟨hs, rfl⟩⟩ ⟨_, receiveAnswer_outstanding hb hs hz⟩
    · rw [receiveAnswer_notOutstanding hout hz]
      by_cases hab : n ∈ s.abandoned
      · exact goesOn_of ⟨hz, .inr hab⟩ ⟨_, if_pos hab⟩
      · exact refused_of (fun hk => hk.2.elim hout hab) ⟨_, if_neg hab⟩
  · exact refused_of (fun hk => hz hk.1) ⟨.chunkTooLong, if_pos (Nat.lt_of_not_le hz)⟩

/-- In READ a source goes on exactly if its answer, where it has one, brings at most READ_MAX bytes (43 R150). -/
theorem receiveStream_goesOn {s : State} (h : BlockInv s) (hs : s.syncState = .read) (src : AnswerSource)
    (rest : List Input) :
    GoesOnExactlyIf
      (∀ q, AnswerSource.next s.cfg.readMax s.reads src = some q → Answer.size q.1 ≤ s.cfg.readMax)
      (receiveStream src rest s) := by
  unfold receiveStream
  cases hn : AnswerSource.next s.cfg.readMax s.reads src with
  | none => exact goesOn_of (by simp) ⟨s, rfl⟩
  | some q =>
    obtain ⟨a, src'⟩ := q
    simpa [hs] using receiveAnswer_goesOn (blockInv_withInputs h (.stream src' :: rest)) s.reads a

/-- The block has a step of its own in CHECK and SCAN only (43 R153). -/
theorem checkOrScan_of_ownStepReady {s : State} (hr : ownStepReady s = true) :
    s.syncState = .check ∨ s.syncState = .scan := by
  simp only [ownStepReady, Bool.and_eq_true, Bool.or_eq_true, beq_iff_eq] at hr
  exact hr.2

/-- What stands behind the block's own steps has not arrived, so it breaks no duty (20 R46; log entry 1). -/
theorem dutiesKept_of_ownStepReady {s : State} (hr : ownStepReady s = true) : DutiesKept s := by
  have hcs := checkOrScan_of_ownStepReady hr
  have hread : s.syncState ≠ .read := by rcases hcs with hs | hs <;> simp [hs]
  unfold DutiesKept
  split
  · exact hread
  · exact hcs.imp_right .inl
  · exact fun hs => absurd hs hread
  · trivial

/-- With no step of its own the block is in neither CHECK nor SCAN (10 R24, R28). -/
theorem not_checkOrScan {s : State} (h : BlockInv s) (hr : ownStepReady s = false) :
    s.syncState ≠ .check ∧ s.syncState ≠ .scan := by
  constructor <;>
  · intro hs
    have hb : s.cmdBusy = true := cmdBusy_of_inFlight h (by rw [hs]; rfl)
    simp [ownStepReady, hb, hs] at hr

/-- A step with no own step of the block to take and a transfer next (30 R60, 60 R214). -/
theorem step_transfer_goesOn {s : State} (h : BlockInv s) (hr : ownStepReady s = false) {w : U16} {p : List Byte}
    {rest : List Input} (hi : s.inputs = .transfer w p :: rest) :
    GoesOnExactlyIf (s.syncState ≠ .read) (step s) := by
  by_cases hs : s.syncState = .read
  · have hb : s.cmdBusy = true := cmdBusy_of_inFlight h (by rw [hs]; rfl)
    exact refused_of (not_not.2 hs) ⟨.transferWhileBusy, by simp [step_of_transfer hi, hr, hb]⟩
  · have hb : s.cmdBusy = false := by
      refine Bool.eq_false_iff.2 fun hb => ?_
      rw [ownStepReady_of_busy h hb hs] at hr
      cases hr
    rw [step_of_readyTransfer hi hb]
    exact goesOn_of hs (acceptTransfer_goesOn (blockInv_withInputs h rest) hb w p)

/-- A step with no own step of the block to take and a source next (43 R164): outside READ it passes. -/
theorem step_stream_goesOn {s : State} (h : BlockInv s) (hr : ownStepReady s = false) {src : AnswerSource}
    {rest : List Input} (hi : s.inputs = .stream src :: rest) :
    GoesOnExactlyIf (s.syncState = .read →
      ∀ q, AnswerSource.next s.cfg.readMax s.reads src = some q → Answer.size q.1 ≤ s.cfg.readMax) (step s) := by
  by_cases hs : s.syncState = .read
  · have hb : s.cmdBusy = true := cmdBusy_of_inFlight h (by rw [hs]; rfl)
    rw [step_of_stream hb hs hi]
    simpa [hs] using receiveStream_goesOn h hs src rest
  · have hstep : step s = blockStep { s with inputs := rest } := by simp [step, hi, hr, hs]
    rw [hstep]
    exact goesOn_of (fun hread => absurd hread hs) (blockStep_goesOn (blockInv_withInputs h rest))

/-- The next step is a reset when one is next at the ports (70 R230). -/
theorem takesReset_iff {s : State} : takesReset s = true ↔ ∃ rest, s.inputs = .reset :: rest := by
  unfold takesReset
  split <;> simp_all

/-- Under the invariant a step goes on exactly if the next input keeps the duties of 60 R214. -/
theorem step_goesOn {s : State} (h : BlockInv s) : GoesOnExactlyIf (DutiesKept s) (step s) := by
  by_cases hreset : takesReset s = true
  · obtain ⟨rest, hi⟩ := takesReset_iff.1 hreset
    exact goesOn_of (by simp [DutiesKept, hi]) ⟨_, by rw [step, hi]⟩
  rw [Bool.not_eq_true] at hreset
  cases hr : ownStepReady s with
  | true =>
    rw [step_of_ownStep hr hreset]
    exact goesOn_of (dutiesKept_of_ownStepReady hr) (blockStep_goesOn (blockInv_withInputs h _))
  | false =>
    obtain ⟨hcheck, hscan⟩ := not_checkOrScan h hr
    cases hi : s.inputs with
    | nil => exact goesOn_of (by simp [DutiesKept, hi]) (by simpa [step, hi] using blockStep_goesOn h)
    | cons i rest =>
      have hrest : BlockInv { s with inputs := rest } := blockInv_withInputs h rest
      cases i with
      | reset => simp [takesReset, hi] at hreset
      | wait => exact goesOn_of (by simp [DutiesKept, hi]) (by simpa [step, hi] using blockStep_goesOn hrest)
      | transfer w p => simpa [DutiesKept, hi] using step_transfer_goesOn h hr hi
      | answer n a => simpa [DutiesKept, hi, hcheck, hscan, step_of_answer hi, hr] using receiveAnswer_goesOn hrest n a
      | stream src => simpa [DutiesKept, hi] using step_stream_goesOn h hr hi

/-- Settles O59: a step goes on exactly if the duties are kept, and every step keeps the invariant. -/
theorem stopsOnlyOnABrokenDuty : Obligations.StopsOnlyOnABrokenDuty := by
  intro s h
  obtain ⟨hgo, hstop⟩ := step_goesOn h
  refine ⟨fun hd => ?_, hstop⟩
  obtain ⟨t, ht⟩ := hgo hd
  exact ⟨t, ht, invariantKeptByEveryStep s t h ht⟩

end Sys2Proof.Machine
end

section
/-! SUPPORT. The statements of spec/70_reset_and_hazards.md: what a reset sets, the port after power-on, the abandoned
read and its late answer, and the terminal states that a reset alone leaves. -/

namespace Sys2Proof.Machine

/-! ### Reset and power-on -/

/-- A reset that is next at the ports lands, whatever the block does (70 R230). -/
theorem step_of_reset {s : State} {rest : List Input} (hi : s.inputs = .reset :: rest) :
    step s = .next (resetEvent { s with inputs := rest }) := by
  rw [step, hi]

/-- Settles O49: a specified configuration fixes the reset values of LOCAL_ID and CRC_ACC (00 R9, R10), the reset the rest. -/
theorem resetSetsEveryElement : Obligations.ResetSetsEveryElement := by
  constructor
  · intro s rest hc hi
    obtain ⟨-, hid, hcrc, -⟩ := hc
    exact ⟨_, step_of_reset hi, hid, congrArg CrcAlg.init hcrc, rfl, rfl, rfl, rfl, rfl, rfl, rfl⟩
  · rw [step_of_reset rfl]
    rfl

/-- The port takes the transfer and nothing behind it (30 R60). -/
theorem acceptTransfer_inputs {w : U16} {p : List Byte} {s t : State} (h : acceptTransfer w p s = .next t) :
    t.inputs = s.inputs := by
  unfold acceptTransfer at h
  split at h
  · obtain ⟨-, -, -, -, hinputs, -⟩ := exec_frame h
    exact hinputs
  · cases h
    exact raise_inputs _ _

/-- Settles O50: at power-on the invariant holds and the port is ready, so that every transfer is accepted. -/
theorem powerOnIsReady : Obligations.PowerOnIsReady := by
  refine ⟨rfl, rfl, rfl, rfl, rfl, rfl, rfl, fun w p rest => ?_⟩
  rw [step_of_readyTransfer rfl rfl]
  have hinv : BlockInv (startedWith rest) := blockInv_withInputs invariantHoldsAtReset rest
  obtain ⟨t, ht⟩ := acceptTransfer_goesOn hinv rfl w p
  exact ⟨t, ht, acceptTransfer_inputs ht⟩

/-! ### The abandoned read -/

/-- A reset in READ abandons the outstanding read (70 R231). -/
theorem abandonedByReset_read {s : State} (hb : s.cmdBusy = true) (hs : s.syncState = .read) :
    abandonedByReset s = s.abandoned ++ [s.reads] := by
  simp [abandonedByReset, hb, hs]

/-- Settles O51: the outstanding read is not an abandoned one, so an answer to an abandoned read is not taken. -/
theorem answerToAbandonedReadIsDiscarded : Obligations.AnswerToAbandonedReadIsDiscarded := by
  constructor
  · intro s rest h hs hi
    have hb : s.cmdBusy = true := cmdBusy_of_inFlight h (by rw [hs]; rfl)
    exact ⟨_, step_of_reset hi, abandonedByReset_read (s := { s with inputs := rest }) hb hs, rfl⟩
  · intro s n a rest h hab hr hz hi
    have hout : ¬ (s.syncState = .read ∧ n = s.reads) := by
      rintro ⟨hs, rfl⟩
      exact (h.outstanding hs).2 hab
    rw [step_of_answer hi, hr]
    exact (receiveAnswer_notOutstanding (s := { s with inputs := rest }) hout hz).trans (if_pos hab)

/-! ### The terminal states -/

/-- With no command in flight the block waits (43 R150). -/
theorem blockStep_ready {s : State} (hb : s.cmdBusy = false) : blockStep s = .next s := by
  simp [blockStep, hb]

/-- In a terminal state every command is answered at once and stays there: NEXT_FRAME begins in IDLE only (43 R151). -/
theorem exec_terminal {i : Instr} {s t : State} (hy : s.syncState.terminal = true) (h : exec i s = .next t) :
    t.syncState = s.syncState ∧ t.cmdBusy = false := by
  rcases exec_cases h with ⟨-, hs, -⟩ | ⟨st, v, rfl⟩
  · rw [hs] at hy
    cases hy
  · simp

/-- A step but a reset keeps a terminal state with its BUF and issues no read (70 R232). -/
theorem step_terminal {s t : State} (hy : s.syncState.terminal = true) (hb : s.cmdBusy = false)
    (hreset : takesReset s = false) (h : step s = .next t) :
    t.syncState = s.syncState ∧ t.reads = s.reads ∧ t.buf = s.buf ∧ t.cmdBusy = false := by
  rcases step_cases h with ⟨rest, hi, -⟩ | ⟨-, l, -, hblock⟩ | ⟨w, p, rest, e, -, -, -, rfl⟩ |
    ⟨w, p, rest, i, -, -, -, he⟩ | ⟨a, l, -, hbusy, -⟩ | ⟨n, a, rest, -, -, -, rfl⟩
  · simp [takesReset, hi] at hreset
  · rw [blockStep_ready (s := { s with inputs := l }) hb] at hblock
    cases hblock
    exact ⟨rfl, rfl, rfl, hb⟩
  · exact ⟨rfl, rfl, rfl, rfl⟩
  · obtain ⟨-, -, hbuf, -, -, hreads, -⟩ := exec_frame he
    obtain ⟨hsync, hidle⟩ := exec_terminal (s := { s with inputs := rest }) hy he
    exact ⟨hsync, hreads, hbuf, hidle⟩
  · rw [hb] at hbusy
    cases hbusy
  · exact ⟨rfl, rfl, rfl, hb⟩

/-- NEXT_FRAME in a terminal state gets the stored code (43 R151, 60 R207). -/
theorem exec_nextFrame_terminal {s : State} (hy : s.syncState.terminal = true) : ∃ e,
    (s.syncState, e) ∈ [(SyncState.eos, Status.endOfStream), (.terr, .transportError), (.ovf, .bufferOverflow)] ∧
    exec .nextFrame s = .next (raise e s) := by
  obtain ⟨-, -, heos, hterr, hovf⟩ := nextFrameAcceptance s
  cases hs : s.syncState with
  | eos => exact ⟨.endOfStream, by decide, heos hs⟩
  | terr => exact ⟨.transportError, by decide, hterr hs⟩
  | ovf => exact ⟨.bufferOverflow, by decide, hovf hs⟩
  | idle | check | read | scan => simp [hs, SyncState.terminal] at hy

/-- Settles O48: the steps but a reset, the NEXT_FRAME among them, and the reset. -/
theorem terminalStatesAreSticky : Obligations.TerminalStatesAreSticky := by
  intro s hy hb
  refine ⟨fun t => step_terminal hy hb, fun rest hi => ?_, fun hreset => ?_⟩
  · obtain ⟨e, hmem, he⟩ := exec_nextFrame_terminal (s := { s with inputs := rest }) hy
    refine ⟨e, hmem, ?_⟩
    rw [step_of_readyInstr (i := .nextFrame) rfl hi hb, he, raise, respond_of_ready (s := { s with inputs := rest }) hb]
  · obtain ⟨rest, hi⟩ := takesReset_iff.1 hreset
    exact ⟨_, step_of_reset hi, rfl, rfl, rfl⟩

end Sys2Proof.Machine
end
